-- ==== Sys2Proof/Word.lean ====
section
/-! DEFINITION. The bit-vector types of POWOW CORE. Every value of the hardware is an unsigned vector of a stated
width (R8), so these are plain abbreviations of `BitVec` and all of its lemmas apply. -/

namespace Sys2Proof

/-- One byte of a message block, and one command word of format `C` (R42, R61). -/
abbrev Byte := BitVec 8

/-- One 32-bit word: a digest word, a word of the nonce, a word of ResultBuffer (R13, R16, R40). -/
abbrev Word := BitVec 32

/-- The width of `k` and `START_K` (R12, R26). -/
abbrev Word64 := BitVec 64

/-- The width of CubeNonce and of all cube arithmetic (R13, R96). -/
abbrev Word128 := BitVec 128

end Sys2Proof
end

