-- ==== Sys2Proof/Syntax.lean ====
section
/-! DEFINITION. The operation set POWOW-OPS-1: the twelve operations of rule R60, one constructor per row of
spec/opcode_table.json. -/

namespace Sys2Proof

/-- The one-bit operand `p` (R63): `first` is `p = 0` (`D1` and `B1`), `second` is `p = 1` (`D2` and `B2`). -/
inductive Pass where
  | first
  | second
deriving DecidableEq, Repr

/-- The twelve operations (R60). They are the only things an evaluator can do. -/
inductive Instr where
  /-- `KGEN` (R95). -/
  | kgen
  /-- `CUBE` (R98). -/
  | cube
  /-- `SIGLEN` (R99). -/
  | siglen
  /-- `PACK1` (R105). -/
  | pack1
  /-- `PACK2` (R107). -/
  | pack2
  /-- `SHAIV p` (R87). -/
  | shaiv (p : Pass)
  /-- `SHACMP p` (R88). -/
  | shacmp (p : Pass)
  /-- `LZN` (R113). -/
  | lzn
  /-- `QUAL` (R114). -/
  | qual
  /-- `CLAIM` (R118). -/
  | claim
  /-- `RECORD` (R119). -/
  | record
  /-- `DONE` (R133). -/
  | done
deriving DecidableEq, Repr

end Sys2Proof
end

