-- ==== Sys2Proof/WellFormed.lean ====
section
/-! DEFINITION. When a command word is valid (R61, R65). The checks stand on the three fields of format `C`, because
that is where an ill-formed term can be written: an `Instr` holds no field that could be out of range (R63, R64: the
only operand is one bit, and there are no immediates). -/

namespace Sys2Proof

/-- The fields of a command word of format `C` (R61): `op` is bits 7:4, `rsv` bits 3:1, `p` bit 0. -/
structure Command where
  op : BitVec 4
  rsv : BitVec 3
  p : BitVec 1
deriving DecidableEq, Repr

/-- `op` names an operation: it is none of `0x0`, `0xD`, `0xE`, `0xF` (R62, R65). -/
def Command.opNamed (c : Command) : Bool := 1 ≤ c.op.toNat && c.op.toNat ≤ 12

/-- The reserved field is `000` (R61, R65). -/
def Command.rsvClear (c : Command) : Bool := c.rsv == 0

/-- `p` is 0 unless the operation is `SHAIV` (`0x6`) or `SHACMP` (`0x7`) (R61, R65). -/
def Command.passAllowed (c : Command) : Bool := c.p == 0 || c.op == 6 || c.op == 7

/-- A command word is valid iff all three checks pass (R65): fourteen of the 256 are. -/
def Command.wellFormed (c : Command) : Bool := c.opNamed && c.rsvClear && c.passAllowed

/-- Every term of `Instr` is an operation of R60 with an operand in its range, so nothing is left to check; the match
names every constructor, so that one added later cannot pass unseen. -/
def Instr.wellFormed : Instr → Bool
  | .kgen => true
  | .cube => true
  | .siglen => true
  | .pack1 => true
  | .pack2 => true
  | .shaiv _ => true
  | .shacmp _ => true
  | .lzn => true
  | .qual => true
  | .claim => true
  | .record => true
  | .done => true

end Sys2Proof
end

