-- ==== Sys2Proof/Decode.lean ====
section
/-! DEFINITION. The decoder of R66, total on bytes and rejecting by name, and the encoder written from the table of
R62. No semantic rule reads a code: this file is the only one that knows the encoding. -/

namespace Sys2Proof

/-- Why a command byte is reserved (R65). -/
inductive Reject where
  /-- `rsv` is not `000`. -/
  | reservedField
  /-- `p = 1` with an operation other than `SHAIV` and `SHACMP`. -/
  | passBit
  /-- `op` is `0x0`, `0xD`, `0xE` or `0xF`. -/
  | reservedOp
deriving DecidableEq, Repr

/-- The three fields of a command byte (R61). -/
def splitCommand (c : Byte) : Command where
  op := c.extractLsb' 4 4
  rsv := c.extractLsb' 1 3
  p := c.extractLsb' 0 1

/-- The command byte of three fields: `op || rsv || p` (R61). -/
def joinCommand (c : Command) : Byte := c.op ++ c.rsv ++ c.p

/-- `p` as a pass (R63). -/
def passOf (p : BitVec 1) : Pass := if p = 0 then .first else .second

/-- The bit of a pass (R63). -/
def Pass.bit : Pass → BitVec 1
  | .first => 0
  | .second => 1

/-- The operation of an `op` field that takes no operand (R62, the last case of R66). -/
def decodeOp (op : BitVec 4) : Except Reject Instr :=
  match op.toNat with
  | 0x1 => .ok .kgen
  | 0x2 => .ok .cube
  | 0x3 => .ok .siglen
  | 0x4 => .ok .pack1
  | 0x5 => .ok .pack2
  | 0x8 => .ok .lzn
  | 0x9 => .ok .qual
  | 0xA => .ok .claim
  | 0xB => .ok .record
  | 0xC => .ok .done
  | _ => .error .reservedOp

/-- The decoder, in the order of the cases of R66. -/
def decode (c : Byte) : Except Reject Instr :=
  let f := splitCommand c
  if f.rsv ≠ 0 then .error .reservedField
  else if f.op = 0x6 then .ok (.shaiv (passOf f.p))
  else if f.op = 0x7 then .ok (.shacmp (passOf f.p))
  else if f.p ≠ 0 then .error .passBit
  else decodeOp f.op

/-- The `op` code of an operation (R62). -/
def Instr.op : Instr → BitVec 4
  | .kgen => 0x1
  | .cube => 0x2
  | .siglen => 0x3
  | .pack1 => 0x4
  | .pack2 => 0x5
  | .shaiv _ => 0x6
  | .shacmp _ => 0x7
  | .lzn => 0x8
  | .qual => 0x9
  | .claim => 0xA
  | .record => 0xB
  | .done => 0xC

/-- The `p` bit of an operation: its operand, or 0 where it has none (R61). -/
def Instr.passBit : Instr → BitVec 1
  | .shaiv p => p.bit
  | .shacmp p => p.bit
  | .kgen => 0
  | .cube => 0
  | .siglen => 0
  | .pack1 => 0
  | .pack2 => 0
  | .lzn => 0
  | .qual => 0
  | .claim => 0
  | .record => 0
  | .done => 0

/-- The encoder: the command word of an operation (R61, R62). -/
def encode (i : Instr) : Byte := joinCommand { op := i.op, rsv := 0, p := i.passBit }

/-- The command bytes of a program, one a operation and no other bytes (R61: one length, one format). -/
def encodeAll (is : List Instr) : List Byte := is.map encode

/-- The operations of a sequence of command bytes, or the reason of the first reserved byte. -/
def decodeAll : List Byte → Except Reject (List Instr)
  | [] => .ok []
  | c :: cs =>
    match decode c with
    | .error r => .error r
    | .ok i =>
      match decodeAll cs with
      | .error r => .error r
      | .ok is => .ok (i :: is)

/-- The operation whose command word is `w`, as the rows of spec/opcode_table.json number its bits: every row is one
byte, so anything wider is no command word. -/
def decodeTableWord (nbits w : Nat) : Option Instr :=
  if nbits = 8 ∧ w < 256 then
    match decode (BitVec.ofNat 8 w) with
    | .ok i => some i
    | .error _ => none
  else none

end Sys2Proof
end

