-- ==== Sys2Proof/Machine/Params.lean ====
section
/-! DEFINITION. The fixed parameters of rule R6. -/

namespace Sys2Proof.Machine

/-- `CAPACITY`: the number of result slots (R6). -/
def capacity : Nat := 10

/-- `SLOT_WORDS`: one index word and eight digest words (R6). -/
def slotWords : Nat := 9

/-- `RB_WORDS` = 1 + `CAPACITY` * `SLOT_WORDS` = 91: the words of ResultBuffer (R6, R40). -/
def rbWords : Nat := 1 + capacity * slotWords

/-- `ADD_CONST` = 2040 = 0x7F8 (R6). -/
def addConst : Word128 := 2040

/-- `MARKER`: the ASCII bytes of "HAHA" (R6, G7). -/
def marker : List Byte := [0x48, 0x41, 0x48, 0x41]

/-- The largest batch a launch accepts, 2^32 - 1 (R7, R170 `BatchFits`). -/
def maxBatch : Nat := 2 ^ 32 - 1

end Sys2Proof.Machine
end

