-- ==== Sys2Proof/Machine/Bits.lean ====
section
/-! DEFINITION. Bit fields and byte order (section 8 of 00_scope.md, R43, R44). -/

namespace Sys2Proof.Machine

/-- `rotr32(x, n)` for `0 < n < 32` (R8). -/
def rotr32 (x : Word) (n : Nat) : Word := (x >>> n) ||| (x <<< (32 - n))

/-- `shr32(x, n)`, a logical right shift (R8). -/
def shr32 (x : Word) (n : Nat) : Word := x >>> n

/-- `nib(w, j)`: the `j`-th nibble from the most significant end, `w[31 - 4*j : 28 - 4*j]` (R8). -/
def nib (w : Word) (j : Nat) : BitVec 4 := w.extractLsb' (28 - 4 * j) 4

/-- `be32(w)`: the four bytes of a word, most significant first (R8, R43). -/
def be32 (w : Word) : List Byte :=
  [w.extractLsb' 24 8, w.extractLsb' 16 8, w.extractLsb' 8 8, w.extractLsb' 0 8]

/-- `word_be(b0, b1, b2, b3)`, the inverse of `be32` (R8, R44). -/
def wordBe (b0 b1 b2 b3 : Byte) : Word := b0 ++ b1 ++ b2 ++ b3

/-- The bytes of a row of words, word 0 first (R43). -/
def bytesOf (ws : List Word) : List Byte := ws.flatMap be32

/-- `val128(X)` of four words, most significant first (R8). -/
def val128 (x0 x1 x2 x3 : Word) : Word128 := x0 ++ x1 ++ x2 ++ x3

end Sys2Proof.Machine
end

