-- ==== Sys2Proof/Config.lean ====
section
/-! DEFINITION. The free values: what the spec leaves open and the machine goes on with. None has a body, so no proof
can learn what it is and a theorem holds whatever it is. (The fixed parameters of R6 stand where they are used,
in Sys2Proof/Machine/Params.lean.) -/

namespace Sys2Proof

/-- What word `a` of ResultBuffer holds from power-on until the host or an evaluator writes it: "unspecified", `any value` (R35, U15).
Log entry 3. -/
opaque Config.powerOnWord : Nat → Word

/-- What `KGEN` leaves in `k` where `START_K + EVALUATOR_INDEX` reaches 2^64, as a function of the two: "not stated"
(R95, D6, N21). Log entry 5. -/
opaque Config.identityPastTop : Word64 → Word → Word64

/-- What a `CLAIM` leaves in the hit counter where it held 2^32 - 1: "must not be modelled as a wrap or as a
saturation" (R56, U4). Log entry 6. -/
opaque Config.counterPastTop : Word

/-- The `n`-th choice of the evaluator that takes the next step, where the schedule of the state does not say: "any
interleaving" (R153, U1). Log entry 7. -/
opaque Config.freeTurn : Nat → Nat

end Sys2Proof
end

