-- ==== Sys2Proof/Machine/State.lean ====
section
/-! DEFINITION. The state of POWOW CORE as plain data (R10): the launch parameters, ResultBuffer, one record of private
registers per evaluator, and, marked as the model's own, what stands for the world outside the machine: the schedule
and the moves the host has still to make. With it: the reasons a step can stop, and the state after power-on. -/

namespace Sys2Proof.Machine

/-- The content of a private register (R8, R11). `noval` is the spec's own content `NOVAL`, "not a bit pattern": a
register holds it from launch until the first operation that writes it (R34, R162). -/
inductive Reg (α : Type) where
  | noval
  | holds (v : α)
deriving DecidableEq, Repr

/-- SignificantLength, "one of {4, 8, 12, 16}. No other value is ever held" (R14). -/
inductive SigLen where
  | four
  | eight
  | twelve
  | sixteen
deriving DecidableEq, Repr

/-- CubeNonce: four words, most significant first (R13). -/
abbrev Nonce := Vector Word 4

/-- A DigestState: eight words, in the standard's order (R16, R18). -/
abbrev Digest := Vector Word 8

/-- A message block: 64 bytes, indexed from offset 0 (R15, R17, R42). -/
abbrev Block := Vector Byte 64

/-- ResultBuffer (R40): its words by word index, strictly rising. A word that is not listed is one nothing has written
since power-on, whose content is unspecified (R35). The unit is the 32-bit word: there is no byte address (R40).
Log entries 2 and 3. -/
abbrev Memory := List (Nat × Word)

/-- The private registers that hold `NOVAL` at launch, by name (R11). -/
inductive PrivateReg where
  | k | x | l | b1 | d1 | b2 | d2 | z | q | s
deriving DecidableEq, Repr

/-- The private state of one evaluator (R10 (a), the table of section 2 of 10_state.md). -/
structure Evaluator where
  /-- `CR3 EVALUATOR_INDEX`, read-only to the evaluator (R27); one to each evaluator, and none without one (log entry 17). -/
  index : Word
  /-- CandidateIdentity (R12). -/
  k : Reg Word64
  /-- CubeNonce (R13). -/
  x : Reg Nonce
  /-- SignificantLength (R14). -/
  l : Reg SigLen
  /-- MessageBlockOne (R15). -/
  b1 : Reg Block
  /-- The first-pass digest (R16). -/
  d1 : Reg Digest
  /-- MessageBlockTwo (R17). -/
  b2 : Reg Block
  /-- The final digest (R18). -/
  d2 : Reg Digest
  /-- The count of leading zero nibbles, in 0..64 (R19). -/
  z : Reg (Fin 65)
  /-- The flag "qualifies" (R21). -/
  q : Reg Bool
  /-- The slot index the fetch-and-add returned (R20). -/
  s : Reg Word
  /-- The micro-pc, in 0..13 (R22). -/
  upc : Fin 14
  /-- "Task completed" (R23). -/
  fin : Bool
deriving DecidableEq, Repr

/-- What the host may do between batches (R137, R149, R169). Reading is not listed: a read changes nothing (R47), and
what it answers is `State.hostRead`. -/
inductive HostAction where
  /-- Set all 91 words of ResultBuffer to zero (R163, row H2). -/
  | zeroBuffer
  /-- Write one word of ResultBuffer (R149). -/
  | writeWord (a : Nat) (v : Word)
  /-- Write `CR0 DIFF` (R24, row H3). -/
  | writeDiff (v : Word)
  /-- Write `CR1 TARGET_ZEROS` (R25, row H3). -/
  | writeTargetZeros (v : Word)
  /-- Write `CR2 START_K` (R26, row H3). -/
  | writeStartK (v : Word64)
  /-- Launch a batch of `n` evaluators, indices `0 .. n-1` (R135, row H6). -/
  | launch (n : Nat)
deriving DecidableEq, Repr

/-- The whole state. The last four fields are the model's own and no rule of the spec names them (log entries 7 and 8). -/
structure State where
  /-- `CR0 DIFF` (R24). -/
  diff : Word
  /-- `CR1 TARGET_ZEROS` (R25). -/
  targetZeros : Word
  /-- `CR2 START_K` (R26). -/
  startK : Word64
  /-- ResultBuffer, the only shared mutable resource (R10 (b), R40). -/
  rb : Memory
  /-- The evaluators of the current batch, evaluator `e` at position `e`; none outside a batch (R35, R128). -/
  evaluators : List Evaluator
  /-- Model's own: the position of the evaluator whose operation is being carried out. -/
  turn : Nat
  /-- Model's own: the evaluators that take the next steps, in order, as far as it is laid down (R153). -/
  schedule : List Nat
  /-- Model's own: how many steps evaluators have taken; the argument of the free value `Config.freeTurn`. -/
  turns : Nat
  /-- Model's own: what the host has still to do, first thing first; it moves only between batches (R164, R168). -/
  host : List HostAction
deriving DecidableEq, Repr

/-- Why a step or an operation stops. None is an exception of the hardware, which has none (R140, R143). -/
inductive Fault where
  /-- Raised by an operation that reads a private register holding `NOVAL` (R11, R143). Safe. -/
  | readNoval (r : PrivateReg)
  /-- Raised by an operation carried out where the state has no evaluator whose turn it is: operations exist only as an
  evaluator's steps (R35, R128). The step function never carries one out there. Safe. -/
  | noEvaluator
  /-- Raised by an access to a word index above 90, which does not exist (R40). No operation generates one (R120); a
  host write may. Safe. -/
  | noSuchWord (a : Nat)
  /-- Raised by the step function: every evaluator has `fin = 1`, so none has a step (R131, R136), and the host has
  nothing left to do. Safe: the machine has come to rest. -/
  | atRest
deriving DecidableEq, Repr

/-- What the model declines to give a meaning (R65, R143, R170). -/
inductive Refusal where
  /-- Raised by `exec` for an operation without a meaning yet; no arm of it does. Safe. -/
  | notModelled (mnemonic : String)
  /-- Raised on issuing a reserved command byte: "it has no step and no meaning" (R65). The hardwired sequence holds
  none (R69). Safe. -/
  | reservedCommand (c : Byte)
  /-- Raised by a launch on a buffer that is not known to be zero: premise `BufferZero` (R163, R170, U2). Safe. -/
  | launchBufferNotZero
  /-- Raised by a launch with `start_k + N - 1 >= 2^64`: premise `NoKOverflow` (R165, R170, U5). Safe. -/
  | launchKOverflow
  /-- Raised by a launch with `N > 2^32 - 1`: premise `BatchFits` (R167, R170). Safe. -/
  | launchTooLarge
  /-- Raised by any host move made while an evaluator of the batch has a step left: premises `HostQuiet`,
  `ParamsStable`, `NoOverlap` (R164, R166, R168, R170). The step function never makes one then. Safe. -/
  | hostDuringBatch
deriving DecidableEq, Repr

/-- The state after power-on, before any launch (R35, R161, R162): no evaluator exists, and no word of ResultBuffer has
been written. The control registers are unspecified there; the value 0 is the model's DESIGN CHOICE (log entry 4), and
no evaluator reads one before the host has had its chance to write it. `CR3 EVALUATOR_INDEX` is unspecified there too; that it
has no place in the state while no evaluator exists is the model's DESIGN CHOICE (log entry 17). The outside world has
nothing laid down. -/
def State.reset : State where
  diff := 0
  targetZeros := 0
  startK := 0
  rb := []
  evaluators := []
  turn := 0
  schedule := []
  turns := 0
  host := []

end Sys2Proof.Machine
end

