-- ==== Sys2Proof/Machine/Ops.lean ====
section
/-! DEFINITION. The named operations over ResultBuffer and the private registers. The hardware has no exception, no trap
entry and no return from one (R140, R146, R147), so there is none here. -/

namespace Sys2Proof.Machine

/-! ### ResultBuffer as data -/

/-- The canonical form: word indexes strictly rising, none above 90 (R40). -/
abbrev Memory.wf (m : Memory) : Prop :=
  m.Pairwise (fun c d => c.1 < d.1) ∧ ∀ c ∈ m, c.1 < rbWords

/-- The word that has been written at `a`, if one has. -/
def Memory.lookup : Memory → Nat → Option Word
  | [], _ => none
  | (b, w) :: m, a => if a = b then some w else Memory.lookup m a

/-- `MemRead(a, 4)` (section 9 of 00_scope.md); a word nothing has written since power-on reads as a free value
(R35, U15; log entry 3). -/
def Memory.read (m : Memory) (a : Nat) : Word := (m.lookup a).getD (Config.powerOnWord a)

/-- `MemWrite(a, 4, v)` (section 9 of 00_scope.md), keeping the canonical form. -/
def Memory.write : Memory → Nat → Word → Memory
  | [], a, v => [(a, v)]
  | (b, w) :: m, a, v =>
    if a < b then (a, v) :: (b, w) :: m
    else if a = b then (a, v) :: m
    else (b, w) :: Memory.write m a v

/-- Several words written one after another. -/
def Memory.writeMany (m : Memory) (ws : List (Nat × Word)) : Memory :=
  ws.foldl (fun m c => m.write c.1 c.2) m

/-- All 91 words zero (R163). -/
def zeroedBuffer : Memory := (List.range rbWords).map fun a => (a, 0)

/-- Premise `BufferZero` (R170): every one of the 91 words has been written and holds 0. -/
def Memory.isZero (m : Memory) : Bool := (List.range rbWords).all fun a => m.lookup a == some 0

/-! ### ResultBuffer as an evaluator or the host reaches it -/

/-- A write of words of ResultBuffer, in the order given; an index above 90 names no word (R40, R47). -/
def writeWords (ws : List (Nat × Word)) (s : State) : Host.Outcome State Fault Refusal :=
  match ws.find? (fun c => rbWords ≤ c.1) with
  | some c => .fault (.noSuchWord c.1)
  | none => .next { s with rb := s.rb.writeMany ws }

/-- The 32-bit successor `MemFetchAdd(0, 4, 1)` leaves in a counter (R48). What it leaves past 2^32 - 1 is not stated
and is a free value: neither a wrap nor a saturation (R56, U4; log entry 6). -/
def counterNext (old : Word) : Word := if old.toNat + 1 < 2 ^ 32 then old + 1 else Config.counterPastTop

/-- `MemFetchAdd(0, 4, 1)` (R48): in one event the hit counter is read and its successor written; the continuation is
given the value read. -/
def fetchAddCounter (s : State) (f : Word → State → Host.Outcome State Fault Refusal) :
    Host.Outcome State Fault Refusal :=
  f (s.rb.read 0) { s with rb := s.rb.write 0 (counterNext (s.rb.read 0)) }

/-! ### Evaluators -/

/-- The evaluator whose turn it is. -/
def State.current (s : State) : Option Evaluator := s.evaluators[s.turn]?

/-- Put back the evaluator whose turn it is, changed. -/
def State.putCurrent (s : State) (e : Evaluator) : State :=
  { s with evaluators := s.evaluators.set s.turn e }

/-- Carry something out for the evaluator whose turn it is. -/
def onEvaluator (s : State) (f : Evaluator → Host.Outcome State Fault Refusal) :
    Host.Outcome State Fault Refusal :=
  match s.current with
  | some e => f e
  | none => .fault .noEvaluator

/-- Read a private register: a read of `NOVAL` is a fault of the model (R11). -/
def readReg {α : Type} (r : Reg α) (name : PrivateReg) (f : α → Host.Outcome State Fault Refusal) :
    Host.Outcome State Fault Refusal :=
  match r with
  | .holds v => f v
  | .noval => .fault (.readNoval name)

/-- An evaluator as a launch creates it (R34, R162): `upc = 0`, `fin = 0`, its own index, and every other private
register `NOVAL`. -/
def Evaluator.fresh (index : Word) : Evaluator where
  index := index
  k := .noval
  x := .noval
  l := .noval
  b1 := .noval
  d1 := .noval
  b2 := .noval
  d2 := .noval
  z := .noval
  q := .noval
  s := .noval
  upc := 0
  fin := false

end Sys2Proof.Machine
end

