-- ==== Sys2Proof/Machine/Operands.lean ====
section
/-! DEFINITION. The one operand form of the hardware, the pass select `p` (R63), and the values of registers as numbers
and bytes. -/

namespace Sys2Proof.Machine

/-- `Dsel(p)`: `D1` when `p = 0`, `D2` when `p = 1` (R63). -/
def Evaluator.dsel (e : Evaluator) : Pass → Reg Digest
  | .first => e.d1
  | .second => e.d2

/-- `Bsel(p)`: `B1` when `p = 0`, `B2` when `p = 1` (R63). -/
def Evaluator.bsel (e : Evaluator) : Pass → Reg Block
  | .first => e.b1
  | .second => e.b2

/-- `Dsel(p) <- d` (R63): the other pass's register is left alone (R18). -/
def Evaluator.setDsel (e : Evaluator) (p : Pass) (d : Digest) : Evaluator :=
  match p with
  | .first => { e with d1 := .holds d }
  | .second => { e with d2 := .holds d }

/-- The name of `Dsel(p)`. -/
def dselName : Pass → PrivateReg
  | .first => .d1
  | .second => .d2

/-- The name of `Bsel(p)`. -/
def bselName : Pass → PrivateReg
  | .first => .b1
  | .second => .b2

/-- SignificantLength as a number of bytes (R14). -/
def SigLen.bytes : SigLen → Nat
  | .four => 4
  | .eight => 8
  | .twelve => 12
  | .sixteen => 16

/-- The nonce as one 128-bit number (R13, R8 `val128`). -/
def Nonce.value (x : Nonce) : Word128 := val128 x[0] x[1] x[2] x[3]

/-- The bytes of a digest as it is printed, word 0 first (R43). -/
def Digest.bytes (d : Digest) : List Byte := bytesOf d.toList

/-- A block from the byte at each offset (R42: block buffers are written whole). -/
def blockOf (f : Nat → Byte) : Block := Vector.ofFn fun i => f i.val

end Sys2Proof.Machine
end

