-- ==== Sys2Proof/Machine/Sequencer.lean ====
section
/-! DEFINITION. The sequencer: `DONE`, the hardwired sequence, its one conditional transfer, and which evaluator takes the
next step (45_sequencer.md). -/

namespace Sys2Proof.Machine

/-- `DONE` (R133): `fin <- 1`. -/
def execDone (s : State) : Host.Outcome State Fault Refusal :=
  onEvaluator s fun e => .next (s.putCurrent { e with fin := true })

/-- The hardwired sequence, as the fourteen command bytes at `upc` = 0..13 (R69, R130). It is a constant, held in no
memory a store could reach (R57). -/
def sequenceRom : List Byte :=
  [0x10, 0x20, 0x30, 0x40, 0x60, 0x70, 0x50, 0x61, 0x71, 0x80, 0x90, 0xA0, 0xB0, 0xC0]

/-- The command byte the sequencer issues at a micro-pc (R69). -/
def commandAt (upc : Fin 14) : Byte := sequenceRom.getD upc.val 0

/-- "Next `upc`" of R130: 11 or 13 after `QUAL`, by `Q` (R132); 13 after `DONE`; else one more (R22). -/
def nextUpc (upc : Fin 14) (q : Reg Bool) : Fin 14 :=
  if upc.val = 10 then (if q = .holds true then 11 else 13)
  else if h : upc.val + 1 < 14 then ⟨upc.val + 1, h⟩ else 13

/-- The place of an operation in the hardwired sequence (R130). -/
def positionOf : Instr → Fin 14
  | .kgen => 0
  | .cube => 1
  | .siglen => 2
  | .pack1 => 3
  | .shaiv .first => 4
  | .shacmp .first => 5
  | .pack2 => 6
  | .shaiv .second => 7
  | .shacmp .second => 8
  | .lzn => 9
  | .qual => 10
  | .claim => 11
  | .record => 12
  | .done => 13

/-- Evaluator `e` exists and has a step: its `fin` is 0 (R131). -/
def State.live (s : State) (e : Nat) : Bool :=
  match s.evaluators[e]? with
  | some v => !v.fin
  | none => false

/-- The evaluators that have a step. -/
def State.liveList (s : State) : List Nat := (List.range s.evaluators.length).filter s.live

/-- Batch completion: every evaluator has `fin = 1` (R136). -/
def State.complete (s : State) : Bool := s.evaluators.all fun e => e.fin

/-- The evaluator that takes the next step (R128, R153): the first of the schedule that has a step; where the schedule
names none, a free choice among those that have one. None has a step iff the batch is complete. -/
def State.chosen (s : State) : Option Nat :=
  match s.schedule.find? s.live with
  | some e => some e
  | none =>
    match s.liveList with
    | [] => none
    | [e] => some e
    | e :: es => some ((e :: es).getD (Config.freeTurn s.turns % (es.length + 1)) e)

/-- Give evaluator `e` the turn: the schedule is used up to the entry that named it. -/
def State.select (s : State) (e : Nat) : State :=
  { s with turn := e, turns := s.turns + 1, schedule := (s.schedule.dropWhile fun t => !s.live t).tail }

/-- Set the micro-pc of the evaluator whose turn it is to its "Next `upc`" (R131). -/
def State.advance (s : State) : State :=
  match s.current with
  | some e => s.putCurrent { e with upc := nextUpc e.upc e.q }
  | none => s

end Sys2Proof.Machine
end

