-- ==== Sys2Proof/Machine/HostPort.lean ====
section
/-! DEFINITION. The host's side of the interface: launching a batch, preparing for one, and reading its results (R135,
R137, R163 to R170). The host itself is outside the machine (R4). -/

namespace Sys2Proof.Machine

/-- Premise `NoKOverflow` (R165, R170): `start_k + N - 1 < 2^64`, vacuous when `N = 0`. -/
def noKOverflow (startK : Word64) (n : Nat) : Bool := n = 0 || startK.toNat + n ≤ 2 ^ 64

/-- The evaluators a launch creates, indices `0 .. n-1`, each in the launch state (R34, R135). -/
def freshEvaluators (n : Nat) : List Evaluator := (List.range n).map fun e => Evaluator.fresh (BitVec.ofNat 32 e)

/-- `BATCH n` (R135), refused where a premise of R170 fails; `N = 0` creates no evaluator. -/
def launch (n : Nat) (s : State) : Host.Outcome State Fault Refusal :=
  if ¬ n ≤ maxBatch then .refused .launchTooLarge
  else if ¬ noKOverflow s.startK n then .refused .launchKOverflow
  else if ¬ s.rb.isZero then .refused .launchBufferNotZero
  else .next { s with evaluators := freshEvaluators n, turn := 0 }

/-- One move of the host between batches. The evaluators of the batch before exist no more (R35, R36, R133). A move
during a batch is refused: the host has none there (R164, R166, R168). -/
def hostAct (a : HostAction) (s : State) : Host.Outcome State Fault Refusal :=
  if ¬ s.complete then .refused .hostDuringBatch
  else
    let s := { s with evaluators := [], turn := 0 }
    match a with
    | .zeroBuffer => .next { s with rb := zeroedBuffer }
    | .writeWord w v => writeWords [(w, v)] s
    | .writeDiff v => .next { s with diff := v }
    | .writeTargetZeros v => .next { s with targetZeros := v }
    | .writeStartK v => .next { s with startK := v }
    | .launch n => launch n s

/-- The host's turn, when no evaluator has a step: its next move, if it has one. -/
def hostTurn (s : State) : Host.Outcome State Fault Refusal :=
  match s.host with
  | [] => .fault .atRest
  | a :: rest => hostAct a { s with host := rest }

/-- `evaluate_batch(results, diff, target_zeros, start_k)` over `n` evaluators as the host's moves, in the order of R169
(R135). -/
def evaluateBatch (n : Nat) (diff targetZeros : Word) (startK : Word64) : List HostAction :=
  [.zeroBuffer, .writeDiff diff, .writeTargetZeros targetZeros, .writeStartK startK, .launch n]

/-- What the host reads of ResultBuffer: nothing is promised before the batch is complete, so nothing is answered then
(R45, R52, R53, R164). -/
def State.hostRead (s : State) (a : Nat) : Option Word :=
  if s.complete ∧ a < rbWords then some (s.rb.read a) else none

/-- The number of populated slots the host goes by, `min(RB[0], 10)` (R121, R137 row H8). -/
def State.populated (s : State) : Nat := min (s.rb.read 0).toNat capacity

/-- The candidate the host recovers from slot `slot`, `start_k + RB[1 + 9*slot]` (R126, R137 row H9). -/
def State.recoveredK (s : State) (slot : Nat) : Nat := s.startK.toNat + (s.rb.read (1 + slotWords * slot)).toNat

end Sys2Proof.Machine
end

