-- ==== Sys2Proof/Machine/BlockBuilder.lean ====
section
/-! DEFINITION. The Message Block Builder: `PACK1`, `PACK2` (42_block_builder.md). -/

namespace Sys2Proof.Machine

/-- `XB[0..15]`: the sixteen bytes of the nonce, most significant first (R105). -/
def nonceBytes (x : Nonce) : List Byte := bytesOf x.toList

/-- The byte of MessageBlockOne at an offset, for the sixteen nonce bytes `xb` and a significant length of `l` bytes: the
five lines of the pseudocode of R105. -/
def blockOneByte (xb : List Byte) (l i : Nat) : Byte :=
  let bitlen : BitVec 16 := BitVec.ofNat 16 ((4 + l) * 8)
  if i < 4 then marker.getD i 0
  else if i < 4 + l then xb.getD (16 - l + (i - 4)) 0
  else if i = 4 + l then 0x80
  else if i < 62 then 0x00
  else if i = 62 then bitlen.extractLsb' 8 8
  else bitlen.extractLsb' 0 8

/-- MessageBlockOne (R105). -/
def blockOne (x : Nonce) (l : SigLen) : Block := blockOf (blockOneByte (nonceBytes x) l.bytes)

/-- The byte of MessageBlockTwo at an offset, for the 32 bytes `db` of the first digest (R107). -/
def blockTwoByte (db : List Byte) (i : Nat) : Byte :=
  if i < 32 then db.getD i 0
  else if i = 32 then 0x80
  else if i < 62 then 0x00
  else if i = 62 then 0x01
  else 0x00

/-- MessageBlockTwo (R107). -/
def blockTwo (d : Digest) : Block := blockOf (blockTwoByte d.bytes)

/-- `PACK1` (R105). -/
def execPack1 (s : State) : Host.Outcome State Fault Refusal :=
  onEvaluator s fun e =>
    readReg e.x .x fun x =>
      readReg e.l .l fun l =>
        .next (s.putCurrent { e with b1 := .holds (blockOne x l) })

/-- `PACK2` (R107). -/
def execPack2 (s : State) : Host.Outcome State Fault Refusal :=
  onEvaluator s fun e =>
    readReg e.d1 .d1 fun d =>
      .next (s.putCurrent { e with b2 := .holds (blockTwo d) })

end Sys2Proof.Machine
end

