-- ==== Sys2Proof/Machine/Collector.lean ====
section
/-! DEFINITION. The Result Collector: `CLAIM`, `RECORD`, the only operations that touch shared state (44_result_collector.md). -/

namespace Sys2Proof.Machine

/-- The first word of a slot, `1 + 9*S` (R41, R119). -/
def slotBase (slot : Nat) : Nat := 1 + slotWords * slot

/-- The nine words of a finding with their word indexes: the evaluator index, then the eight digest words, most
significant first (R41, R119). -/
def slotWrites (slot : Nat) (index : Word) (d : Digest) : List (Nat × Word) :=
  (slotBase slot, index) :: d.toList.mapIdx fun j w => (slotBase slot + 1 + j, w)

/-- `CLAIM` (R118): the counter goes up whatever it holds, and `S` gets the value before. -/
def execClaim (s : State) : Host.Outcome State Fault Refusal :=
  onEvaluator s fun e =>
    fetchAddCounter s fun old s' =>
      .next (s'.putCurrent { e with s := .holds old })

/-- `RECORD` (R119): nine word writes if `S < 10`, else nothing. They are made in one step, as R125 allows. -/
def execRecord (s : State) : Host.Outcome State Fault Refusal :=
  onEvaluator s fun e =>
    readReg e.s .s fun slot =>
      if slot.toNat < capacity then
        readReg e.d2 .d2 fun d => writeWords (slotWrites slot.toNat e.index d) s
      else .next s

end Sys2Proof.Machine
end

