-- ==== Sys2Proof/Machine/Compression.lean ====
section
/-! DEFINITION. The SHA-256 Compression Engine: `SHAIV`, `SHACMP` (40_sha256_compression.md). The transient registers of
the engine are not architectural (R29, R89), so `compress` is a pure function and State holds none of them. -/

namespace Sys2Proof.Machine

/-- `IV`, the fixed initialization vector (R76). -/
def iv : Digest :=
  #v[0x6a09e667, 0xbb67ae85, 0x3c6ef372, 0xa54ff53a, 0x510e527f, 0x9b05688c, 0x1f83d9ab, 0x5be0cd19]

/-- The table of R78 in its own form: row `r` holds `K[4r] .. K[4r+3]`. -/
def roundConstantRows : List (List Word) := [
  [0x428a2f98, 0x71374491, 0xb5c0fbcf, 0xe9b5dba5],
  [0x3956c25b, 0x59f111f1, 0x923f82a4, 0xab1c5ed5],
  [0xd807aa98, 0x12835b01, 0x243185be, 0x550c7dc3],
  [0x72be5d74, 0x80deb1fe, 0x9bdc06a7, 0xc19bf174],
  [0xe49b69c1, 0xefbe4786, 0x0fc19dc6, 0x240ca1cc],
  [0x2de92c6f, 0x4a7484aa, 0x5cb0a9dc, 0x76f988da],
  [0x983e5152, 0xa831c66d, 0xb00327c8, 0xbf597fc7],
  [0xc6e00bf3, 0xd5a79147, 0x06ca6351, 0x14292967],
  [0x27b70a85, 0x2e1b2138, 0x4d2c6dfc, 0x53380d13],
  [0x650a7354, 0x766a0abb, 0x81c2c92e, 0x92722c85],
  [0xa2bfe8a1, 0xa81a664b, 0xc24b8b70, 0xc76c51a3],
  [0xd192e819, 0xd6990624, 0xf40e3585, 0x106aa070],
  [0x19a4c116, 0x1e376c08, 0x2748774c, 0x34b0bcb5],
  [0x391c0cb3, 0x4ed8aa4a, 0x5b9cca4f, 0x682e6ff3],
  [0x748f82ee, 0x78a5636f, 0x84c87814, 0x8cc70208],
  [0x90befffa, 0xa4506ceb, 0xbef9a3f7, 0xc67178f2]]

/-- `K[0..63]`, the rows of R78 read one after another. -/
def roundConstants : List Word := roundConstantRows.flatten

/-- `Ch` (R79). -/
def ch (x y z : Word) : Word := (x &&& y) ^^^ (~~~x &&& z)

/-- `Maj` (R79). -/
def maj (x y z : Word) : Word := (x &&& y) ^^^ (x &&& z) ^^^ (y &&& z)

/-- `BSIG0` (R80). -/
def bsig0 (x : Word) : Word := rotr32 x 2 ^^^ rotr32 x 13 ^^^ rotr32 x 22

/-- `BSIG1` (R80). -/
def bsig1 (x : Word) : Word := rotr32 x 6 ^^^ rotr32 x 11 ^^^ rotr32 x 25

/-- `SSIG0`, whose third term is a shift (R81). -/
def ssig0 (x : Word) : Word := rotr32 x 7 ^^^ rotr32 x 18 ^^^ shr32 x 3

/-- `SSIG1`, whose third term is a shift (R81). -/
def ssig1 (x : Word) : Word := rotr32 x 17 ^^^ rotr32 x 19 ^^^ shr32 x 10

/-- Block parsing: each four bytes in turn are one big-endian word (R77). -/
def parseWords : List Byte → List Word
  | b0 :: b1 :: b2 :: b3 :: rest => wordBe b0 b1 b2 b3 :: parseWords rest
  | _ => []

/-- The next word of the schedule, from the words so far, newest first: `W[t-2]`, `W[t-7]`, `W[t-15]`, `W[t-16]` stand at
places 1, 6, 14, 15 (R82). -/
def nextScheduleWord (w : List Word) : Word :=
  ssig1 (w.getD 1 0) + w.getD 6 0 + ssig0 (w.getD 14 0) + w.getD 15 0

/-- `n` more words of the schedule, newest first. -/
def expandSchedule : Nat → List Word → List Word
  | 0, w => w
  | n + 1, w => expandSchedule n (nextScheduleWord w :: w)

/-- The message schedule `W[0..63]` of a block (R77, R82). -/
def messageSchedule (m : Block) : List Word := (expandSchedule 48 (parseWords m.toList).reverse).reverse

/-- The working variables of the engine (R29). -/
structure Working where
  a : Word
  b : Word
  c : Word
  d : Word
  e : Word
  f : Word
  g : Word
  h : Word
deriving DecidableEq, Repr

/-- The working variables start as the input state (R83). -/
def Working.ofDigest (d : Digest) : Working := ⟨d[0], d[1], d[2], d[3], d[4], d[5], d[6], d[7]⟩

/-- One round, with the constant `K[t]` and the schedule word `W[t]`; all eight assignments are made from the values
before the round (R84). -/
def sha256Round (v : Working) (kw : Word × Word) : Working :=
  let t1 := v.h + bsig1 v.e + ch v.e v.f v.g + kw.1 + kw.2
  let t2 := bsig0 v.a + maj v.a v.b v.c
  { a := t1 + t2, b := v.a, c := v.b, d := v.c, e := v.d + t1, f := v.e, g := v.f, h := v.g }

/-- The 64 rounds in order (R84). -/
def sha256Rounds (v : Working) (w : List Word) : Working := (roundConstants.zip w).foldl sha256Round v

/-- `compress(Hin, M)`: the schedule, the rounds, and the feedback into the input state (R75, R85, R86). -/
def compress (hin : Digest) (m : Block) : Digest :=
  let v := sha256Rounds (Working.ofDigest hin) (messageSchedule m)
  #v[hin[0] + v.a, hin[1] + v.b, hin[2] + v.c, hin[3] + v.d,
     hin[4] + v.e, hin[5] + v.f, hin[6] + v.g, hin[7] + v.h]

/-- `SHAIV p` (R87): `Dsel(p)` is overwritten and not read. -/
def execShaiv (p : Pass) (s : State) : Host.Outcome State Fault Refusal :=
  onEvaluator s fun e => .next (s.putCurrent (e.setDsel p iv))

/-- `SHACMP p` (R88). -/
def execShacmp (p : Pass) (s : State) : Host.Outcome State Fault Refusal :=
  onEvaluator s fun e =>
    readReg (e.dsel p) (dselName p) fun d =>
      readReg (e.bsel p) (bselName p) fun b =>
        .next (s.putCurrent (e.setDsel p (compress d b)))

end Sys2Proof.Machine
end

