-- ==== Sys2Proof/Machine/Flags.lean ====
section
/-! DEFINITION. The flag computations. `Q` is the one status flag of the hardware: there are no carry, overflow, zero or
sign flags (R21). -/

namespace Sys2Proof.Machine

/-- `Q`: the count reaches the threshold, as an unsigned comparison of natural numbers, defined for every threshold
(R21, R25, R114). -/
def qualifies (z : Fin 65) (targetZeros : Word) : Bool := targetZeros.toNat ≤ z.val

end Sys2Proof.Machine
end

