-- ==== Sys2Proof/Machine/Difficulty.lean ====
section
/-! DEFINITION. The Difficulty Evaluator: `LZN`, `QUAL` (43_difficulty.md). -/

namespace Sys2Proof.Machine

/-- The zero nibbles at the top of the `n` nibbles of `w` from the `j`-th on: the inner loop of R113, which stops at
the first nonzero nibble. -/
def zeroNibbles (w : Word) : Nat → Nat → Nat
  | 0, _ => 0
  | n + 1, j => if nib w j = 0 then 1 + zeroNibbles w n (j + 1) else 0

/-- The leading zero nibbles of a row of words: the outer loop of R113. A zero word adds 8; a nonzero word ends the
count. -/
def leadingZeros : List Word → Nat
  | [] => 0
  | w :: ws => if w = 0 then 8 + leadingZeros ws else zeroNibbles w 8 0

/-- The inner loop counts at most the nibbles it is given. -/
theorem zeroNibbles_le (w : Word) (n j : Nat) : zeroNibbles w n j ≤ n := by
  induction n generalizing j with
  | zero => exact Nat.le_refl 0
  | succ n ih =>
    unfold zeroNibbles
    split
    · have := ih (j + 1); omega
    · omega

/-- The count is at most eight a word, so that of a digest is in 0..64 (R113, R115). -/
theorem leadingZeros_le (ws : List Word) : leadingZeros ws ≤ 8 * ws.length := by
  induction ws with
  | nil => exact Nat.le_refl 0
  | cons w ws ih =>
    unfold leadingZeros
    split
    · simp only [List.length_cons]; omega
    · have := zeroNibbles_le w 8 0
      simp only [List.length_cons]; omega

/-- The count `LZN` leaves in `Z` (R113). -/
def digestZeros (d : Digest) : Fin 65 :=
  ⟨leadingZeros d.toList, by have := leadingZeros_le d.toList; simp only [Vector.length_toList] at this; omega⟩

/-- `LZN` (R113). -/
def execLzn (s : State) : Host.Outcome State Fault Refusal :=
  onEvaluator s fun e =>
    readReg e.d2 .d2 fun d =>
      .next (s.putCurrent { e with z := .holds (digestZeros d) })

/-- `QUAL` (R114): its only effect is `Q` (R21). -/
def execQual (s : State) : Host.Outcome State Fault Refusal :=
  onEvaluator s fun e =>
    readReg e.z .z fun z =>
      .next (s.putCurrent { e with q := .holds (qualifies z s.targetZeros) })

end Sys2Proof.Machine
end

