-- ==== Sys2Proof/Machine/NonceCube.lean ====
section
/-! DEFINITION. The Nonce Cube Generator: `KGEN`, `CUBE`, `SIGLEN` (41_nonce_cube.md). -/

namespace Sys2Proof.Machine

/-- `mul128(a, b)`: the low 128 bits of the product (R96). -/
def mul128 (a b : Word128) : Word128 := a * b

/-- `add128(a, b)`: the sum modulo 2^128 (R97, D7). -/
def add128 (a b : Word128) : Word128 := a + b

/-- `k = start_k + evaluator_index` (R95). Where the sum reaches 2^64 the result is not stated, and is a free value
(D6, N21; log entry 5). -/
def candidate (startK : Word64) (index : Word) : Word64 :=
  if startK.toNat + index.toNat < 2 ^ 64 then startK + index.setWidth 64
  else Config.identityPastTop startK index

/-- `((k * diff)^3 + 2040) mod 2^128`, by the three multiplications of R98. -/
def cubeValue (k : Word64) (diff : Word) : Word128 :=
  let p := mul128 (k.setWidth 128) (diff.setWidth 128)
  let p2 := mul128 p p
  let p3 := mul128 p2 p
  add128 p3 addConst

/-- The four words of a 128-bit value, most significant first (R13, R98). -/
def splitNonce (v : Word128) : Nonce :=
  #v[v.extractLsb' 96 32, v.extractLsb' 64 32, v.extractLsb' 32 32, v.extractLsb' 0 32]

/-- CubeNonce as `CUBE` leaves it in `X` (R98). -/
def cubeNonce (k : Word64) (diff : Word) : Nonce := splitNonce (cubeValue k diff)

/-- SignificantLength, testing whole words from the top down; word 3 is never tested (R99, R100). -/
def significantLength (x : Nonce) : SigLen :=
  if x[0] ≠ 0 then .sixteen
  else if x[1] ≠ 0 then .twelve
  else if x[2] ≠ 0 then .eight
  else .four

/-- `KGEN` (R95). -/
def execKgen (s : State) : Host.Outcome State Fault Refusal :=
  onEvaluator s fun e =>
    .next (s.putCurrent { e with k := .holds (candidate s.startK e.index) })

/-- `CUBE` (R98). -/
def execCube (s : State) : Host.Outcome State Fault Refusal :=
  onEvaluator s fun e =>
    readReg e.k .k fun k =>
      .next (s.putCurrent { e with x := .holds (cubeNonce k s.diff) })

/-- `SIGLEN` (R99). -/
def execSiglen (s : State) : Host.Outcome State Fault Refusal :=
  onEvaluator s fun e =>
    readReg e.x .x fun x =>
      .next (s.putCurrent { e with l := .holds (significantLength x) })

end Sys2Proof.Machine
end

