-- ==== Sys2Proof/Machine/Dispatch.lean ====
section
/-! DEFINITION. One operation, carried out for the evaluator whose turn it is: one arm per row of spec/opcode_table.json. -/

namespace Sys2Proof.Machine

def exec (i : Instr) (s : State) : Host.Outcome State Fault Refusal :=
  match i with
  | .kgen => Sys2Proof.Machine.execKgen s
  | .cube => Sys2Proof.Machine.execCube s
  | .siglen => Sys2Proof.Machine.execSiglen s
  | .pack1 => Sys2Proof.Machine.execPack1 s
  | .pack2 => Sys2Proof.Machine.execPack2 s
  | .shaiv p => Sys2Proof.Machine.execShaiv p s
  | .shacmp p => Sys2Proof.Machine.execShacmp p s
  | .lzn => Sys2Proof.Machine.execLzn s
  | .qual => Sys2Proof.Machine.execQual s
  | .claim => Sys2Proof.Machine.execClaim s
  | .record => Sys2Proof.Machine.execRecord s
  | .done => Sys2Proof.Machine.execDone s

end Sys2Proof.Machine
end

