-- ==== Sys2Proof/Machine/Issue.lean ====
section
/-! DEFINITION. Issuing a command byte on the command bus, one evaluator's turn, and how the machine is brought to the
point where its next step is a given operation. -/

namespace Sys2Proof.Machine

/-- Issue a command byte for the evaluator whose turn it is: decode it and carry the operation out; a reserved byte is
refused (R65). A unit test may issue operations in any order with this (R143, R171); the sequencer issues its own. -/
def issue (c : Byte) (s : State) : Host.Outcome State Fault Refusal :=
  match decode c with
  | .ok i => exec i s
  | .error _ => .refused (.reservedCommand c)

/-- Issue several command bytes, one after another: a unit program (R143; programs P6 and P8 of 95_test_vectors.md). -/
def issueAll : List Byte → State → Host.Outcome State Fault Refusal
  | [], s => .next s
  | c :: cs, s =>
    match issue c s with
    | .next t => issueAll cs t
    | .fault r => .fault r
    | .refused r => .refused r

/-- The turn of evaluator `e` (R131): carry out the operation at its `upc`, then set `upc` to the "Next `upc`". -/
def takeTurn (e : Nat) (s : State) : Host.Outcome State Fault Refusal :=
  onEvaluator (s.select e) fun v =>
    match issue (commandAt v.upc) (s.select e) with
    | .next t => .next t.advance
    | .fault r => .fault r
    | .refused r => .refused r

/-- Carry operations out one after another, each where it can be. -/
def carryOut (is : List Instr) (s : State) : State :=
  is.foldl (fun s i => match exec i s with | .next t => t | _ => s) s

/-- The operations of the hardwired sequence that stand before a place in it (R130). -/
def operationsBefore (upc : Fin 14) : List Instr :=
  (sequenceRom.take upc.val).filterMap fun c => match decode c with | .ok i => some i | .error _ => none

/-- The machine brought to where its very next step is operation `i` (log entry 9). The operations are hardwired, so
none is stored: the micro-pc selects it. Where an evaluator has a step, the one that takes the next is set at `i`;
where none has, the machine is loaded with a batch of one evaluator on a zeroed buffer (R34, R163, R169) that has come
as far as `i`, the operations before `i` carried out. -/
def State.placeAt (s : State) (i : Instr) : State :=
  match s.chosen with
  | some e => { s with evaluators := s.evaluators.modify e fun v => { v with upc := positionOf i } }
  | none =>
    let launched := { s with rb := zeroedBuffer, evaluators := [Evaluator.fresh 0], turn := 0 }
    let reached := carryOut (operationsBefore (positionOf i)) launched
    { reached with evaluators := reached.evaluators.modify 0 fun v => { v with upc := positionOf i } }

end Sys2Proof.Machine
end

