-- ==== Sys2Proof/Machine/Step.lean ====
section
/-! DEFINITION. One step of the machine: the turn of the evaluator that is chosen, or, when no evaluator has a step, the
next move of the host (R128, R131, R137). -/

namespace Sys2Proof.Machine

def step (s : State) : Host.Outcome State Fault Refusal :=
  match s.chosen with
  | some e => takeTurn e s
  | none => hostTurn s

/-- The machine brought to where its very next step runs the operation of command word `w`; unchanged for a word that is
no command (the sequencer cannot be made to issue one: R65, R69). Log entry 9. -/
def State.withFetchWord (s : State) (nbits w : Nat) : State :=
  match decodeTableWord nbits w with
  | some i => s.placeAt i
  | none => s

end Sys2Proof.Machine
end

