-- ==== Sys2Proof/Machine/Assembly.lean ====
section
/-! DEFINITION. The textual form of operations (R67), as characters, and the pseudo-operations (R68). Neither reaches the state: a
pseudo-operation is another name for a row of operations. -/

namespace Sys2Proof.Machine

/-- The mnemonic of an operation (R60). -/
def mnemonicOf : Instr → List Char
  | .kgen => ['K', 'G', 'E', 'N']
  | .cube => ['C', 'U', 'B', 'E']
  | .siglen => ['S', 'I', 'G', 'L', 'E', 'N']
  | .pack1 => ['P', 'A', 'C', 'K', '1']
  | .pack2 => ['P', 'A', 'C', 'K', '2']
  | .shaiv _ => ['S', 'H', 'A', 'I', 'V']
  | .shacmp _ => ['S', 'H', 'A', 'C', 'M', 'P']
  | .lzn => ['L', 'Z', 'N']
  | .qual => ['Q', 'U', 'A', 'L']
  | .claim => ['C', 'L', 'A', 'I', 'M']
  | .record => ['R', 'E', 'C', 'O', 'R', 'D']
  | .done => ['D', 'O', 'N', 'E']

/-- The digit of a pass. -/
def passDigit : Pass → List Char
  | .first => ['0']
  | .second => ['1']

/-- The textual form of an operation: its mnemonic, followed for `SHAIV` and `SHACMP` by one space and a digit (R67). -/
def textOf (i : Instr) : List Char :=
  match i with
  | .shaiv p => mnemonicOf i ++ [' '] ++ passDigit p
  | .shacmp p => mnemonicOf i ++ [' '] ++ passDigit p
  | .kgen => mnemonicOf i
  | .cube => mnemonicOf i
  | .siglen => mnemonicOf i
  | .pack1 => mnemonicOf i
  | .pack2 => mnemonicOf i
  | .lzn => mnemonicOf i
  | .qual => mnemonicOf i
  | .claim => mnemonicOf i
  | .record => mnemonicOf i
  | .done => mnemonicOf i

/-- The operations, each with both passes where it has one. -/
def allOperations : List Instr :=
  [.kgen, .cube, .siglen, .pack1, .pack2, .shaiv .first, .shaiv .second, .shacmp .first, .shacmp .second,
   .lzn, .qual, .claim, .record, .done]

/-- A line without its comment and the spaces around what is left (R67: a `;` starts a comment). -/
def stripLine (line : List Char) : List Char :=
  (((line.takeWhile fun ch => ch ≠ ';').dropWhile fun ch => ch = ' ').reverse.dropWhile fun ch => ch = ' ').reverse

/-- The operation a line of text names (R67). -/
def parseLine (line : List Char) : Option Instr :=
  allOperations.find? fun i => textOf i = stripLine line

/-- `HASH1` = `SHAIV 0 ; SHACMP 0` (R68). -/
def hash1 : List Instr := [.shaiv .first, .shacmp .first]

/-- `HASH2` = `SHAIV 1 ; SHACMP 1` (R68). -/
def hash2 : List Instr := [.shaiv .second, .shacmp .second]

/-- `NONCE` = `KGEN ; CUBE ; SIGLEN` (R68). -/
def nonce : List Instr := [.kgen, .cube, .siglen]

/-- `DHASH` = `PACK1 ; HASH1 ; PACK2 ; HASH2` (R68). -/
def dhash : List Instr := [.pack1] ++ hash1 ++ [.pack2] ++ hash2

/-- `JUDGE` = `LZN ; QUAL` (R68). -/
def judge : List Instr := [.lzn, .qual]

/-- `COLLECT` = `CLAIM ; RECORD` (R68). -/
def collect : List Instr := [.claim, .record]

/-- `EVAL` = `NONCE ; DHASH ; JUDGE ; if Q = 1 then COLLECT ; DONE`, for either value of `Q` (R68). -/
def eval (q : Bool) : List Instr := nonce ++ dhash ++ judge ++ (if q then collect else []) ++ [.done]

end Sys2Proof.Machine
end

