-- ==== Sys2Proof/Machine/Task.lean ====
section
/-! DEFINITION. One evaluator as a pure function, written on natural numbers and byte strings and apart from the twelve
operations (R134, `EVAL`): the task level of section 5 of 00_scope.md, with the standard's padding of R90. -/

namespace Sys2Proof.Machine

/-- `V = ((k * diff)^3 + 2040) mod 2^128` (R134). -/
def taskNonce (k diff : Nat) : Nat := ((k * diff) ^ 3 + 2040) % 2 ^ 128

/-- `L`, by the size of `V` (R134). -/
def taskLength (v : Nat) : Nat :=
  if 2 ^ 96 ≤ v then 16 else if 2 ^ 64 ≤ v then 12 else if 2 ^ 32 ≤ v then 8 else 4

/-- The low `n` bytes of a number, most significant first (R43). -/
def lowBytes (n v : Nat) : List Byte := (List.range n).map fun i => BitVec.ofNat 8 (v / 256 ^ (n - 1 - i))

/-- `m1 = "HAHA" ++ (the low L bytes of V)` (R134). -/
def taskMessage (v : Nat) : List Byte := marker ++ lowBytes (taskLength v) v

/-- `pad(m)`: the standard's single-block padding of a message of at most 55 bytes, `m ++ 0x80 ++ zeros ++ (8n as a
64-bit big-endian integer in bytes 56..63)` (R90). -/
def padBlock (m : List Byte) : Block :=
  blockOf fun i => (m ++ [0x80] ++ List.replicate (55 - m.length) 0 ++ lowBytes 8 (8 * m.length)).getD i 0

/-- SHA-256 of a message of at most 55 bytes (R90). -/
def sha256OneBlock (m : List Byte) : Digest := compress iv (padBlock m)

/-- `d2 = SHA256(SHA256(m1))`, the final digest of candidate `k` (R110, R134). -/
def taskDigest (k diff : Nat) : Digest :=
  sha256OneBlock (Digest.bytes (sha256OneBlock (taskMessage (taskNonce k diff))))

/-- The digest as one 256-bit number, `D[0]*2^224 + ... + D[7]` (R113). -/
def Digest.value (d : Digest) : Nat := d.toList.foldl (fun n w => n * 2 ^ 32 + w.toNat) 0

/-- Hexadecimal digit `i` of a 256-bit number written as 64 digits (R113). -/
def hexDigit (n i : Nat) : Nat := n / 16 ^ (63 - i) % 16

/-- The number of leading zero hex digits of the digest: the closed form of R113, and `Z` of R134. -/
def taskZeros (d : Digest) : Nat :=
  ((List.range 64).takeWhile fun i => hexDigit (Digest.value d) i == 0).length

/-- `Q` of R134: the candidate has at least `target_zeros` leading zero digits. -/
def taskQualifies (k diff targetZeros : Nat) : Bool := targetZeros ≤ taskZeros (taskDigest k diff)

end Sys2Proof.Machine
end

