-- ==== Sys2Proof/Safety.lean ====
section
/-! DEFINITION. What counts as a good state of a batch, in the terms the statements use: what each private register
holds at each point of the hardwired sequence (R9, R130), and what ResultBuffer holds meanwhile (R49 to R52, R121, R122). -/

namespace Sys2Proof.Machine

/-- The values the private operations give a candidate: one field per register of the table of R130. -/
structure Results where
  k : Word64
  x : Nonce
  l : SigLen
  b1 : Block
  d1 : Digest
  b2 : Block
  d2 : Digest
  z : Fin 65
  q : Bool
deriving DecidableEq, Repr

/-- The values operations 0 to 10 of the sequence give evaluator `index` under the launch parameters of a state: each is
its operation's function of the registers it reads (R95, R98, R99, R105, R87, R88, R107, R113, R114). -/
def State.results (s : State) (index : Word) : Results :=
  let k := candidate s.startK index
  let x := cubeNonce k s.diff
  let l := significantLength x
  let b1 := blockOne x l
  let d1 := compress iv b1
  let b2 := blockTwo d1
  let d2 := compress iv b2
  let z := digestZeros d2
  { k := k, x := x, l := l, b1 := b1, d1 := d1, b2 := b2, d2 := d2, z := z, q := qualifies z s.targetZeros }

/-- A register that the operation at `n - 1` writes with `v`: `NOVAL` before that, `v` from `n` on. -/
def regFrom {α : Type} (n : Nat) (upc : Fin 14) (v : α) : Reg α := if n ≤ upc.val then .holds v else .noval

/-- The private state of an evaluator is that of the hardwired sequence at its `upc` (R130): every register an earlier
operation writes holds that operation's value, every other one `NOVAL` (R11), and `CLAIM` is reached only with `Q = 1`
(R132). -/
structure Evaluator.Follows (s : State) (e : Evaluator) : Prop where
  k : e.k = regFrom 1 e.upc (s.results e.index).k
  x : e.x = regFrom 2 e.upc (s.results e.index).x
  l : e.l = regFrom 3 e.upc (s.results e.index).l
  b1 : e.b1 = regFrom 4 e.upc (s.results e.index).b1
  d1 : e.d1 = if e.upc.val = 5 then .holds iv else regFrom 6 e.upc (s.results e.index).d1
  b2 : e.b2 = regFrom 7 e.upc (s.results e.index).b2
  d2 : e.d2 = if e.upc.val = 8 then .holds iv else regFrom 9 e.upc (s.results e.index).d2
  z : e.z = regFrom 10 e.upc (s.results e.index).z
  q : e.q = regFrom 11 e.upc (s.results e.index).q
  qualified : e.upc.val = 11 ∨ e.upc.val = 12 → (s.results e.index).q = true
  claimed : e.s ≠ .noval ↔ 12 ≤ e.upc.val ∧ (s.results e.index).q = true
  finished : e.fin = true → e.upc.val = 13

/-- The evaluator has taken a slot index (R118). -/
def Evaluator.hasClaimed (e : Evaluator) : Bool := e.s != .noval

/-- The evaluator has come past `RECORD` with slot index `v` (R119). -/
def Evaluator.hasRecorded (e : Evaluator) (v : Word) : Prop := e.upc.val = 13 ∧ e.s = .holds v

/-- How many evaluators have taken a slot index. -/
def State.claimCount (s : State) : Nat := s.evaluators.countP fun e => e.hasClaimed

/-- The invariant of a batch. It holds when no batch runs too (with no evaluator every clause but `canonical` is empty), and
speaks of every state, whatever its schedule. -/
structure State.BatchInv (s : State) : Prop where
  /-- ResultBuffer is in canonical form, and no word above 90 is listed (R40). -/
  canonical : s.rb.wf
  /-- Premise `BatchFits` (R170). -/
  fits : s.evaluators.length ≤ maxBatch
  /-- Premise `NoKOverflow` (R170). -/
  noOverflow : noKOverflow s.startK s.evaluators.length = true
  /-- The indices are exactly `0 .. N-1` (R27). -/
  indices : ∀ (j : Nat) (e : Evaluator), s.evaluators[j]? = some e → e.index.toNat = j
  /-- Every evaluator follows the hardwired sequence (R130). -/
  follows : ∀ e ∈ s.evaluators, e.Follows s
  /-- The counter is the number of claims so far (R51, R121). -/
  counter : s.evaluators ≠ [] → ∃ c, s.rb.lookup 0 = some c ∧ c.toNat = s.claimCount
  /-- No two evaluators hold the same slot index (R50, R122). -/
  distinct : ∀ (i j : Nat) (e e' : Evaluator) (v : Word),
    s.evaluators[i]? = some e → s.evaluators[j]? = some e' → e.s = .holds v → e'.s = .holds v → i = j
  /-- Every slot index taken is below the counter (R51). -/
  below : ∀ (e : Evaluator) (v : Word), e ∈ s.evaluators → e.s = .holds v → v.toNat < s.claimCount
  /-- A recorded finding stands in its slot (R119, R126). -/
  recorded : ∀ (e : Evaluator) (v : Word), e ∈ s.evaluators → e.hasRecorded v → v.toNat < capacity →
    ∀ c ∈ slotWrites v.toNat e.index (s.results e.index).d2, s.rb.lookup c.1 = some c.2
  /-- Every other slot word keeps the zero of the launch (R49). -/
  untouched : s.evaluators ≠ [] → ∀ a : Nat, 0 < a → a < rbWords →
    (∀ (e : Evaluator) (v : Word), e ∈ s.evaluators → e.hasRecorded v → v.toNat < capacity →
      ∀ c ∈ slotWrites v.toNat e.index (s.results e.index).d2, c.1 ≠ a) →
    s.rb.lookup a = some 0

/-- The steps an evaluator has still to take, by R138: 12 in all with `Q = 0`, 14 with `Q = 1`. -/
def Evaluator.stepsLeft (s : State) (e : Evaluator) : Nat :=
  if e.fin then 0
  else if e.upc.val ≤ 10 then (if (s.results e.index).q then 14 else 12) - e.upc.val
  else 14 - e.upc.val

/-- The steps all evaluators of the batch have still to take. -/
def State.stepsLeft (s : State) : Nat := (s.evaluators.map (Evaluator.stepsLeft s)).sum

/-- The qualifying indices of a batch of `n` (`Hset` of R139). -/
def State.hits (s : State) (n : Nat) : List Nat :=
  (List.range n).filter fun e => (s.results (BitVec.ofNat 32 e)).q

/-- What R139 promises of ResultBuffer after a batch of `n`: (a) the counter; (b) distinct qualifying indices `winners`,
one a slot, each with its digest; (c) zero in every other word; (d) every hit recorded where there are at most ten. -/
def State.FinalBuffer (s : State) (n : Nat) : Prop :=
  (s.rb.read 0).toNat = (s.hits n).length ∧
  ∃ winners : List Nat,
    winners.length = min (s.hits n).length capacity ∧ winners.Nodup ∧ (∀ e ∈ winners, e ∈ s.hits n) ∧
    (∀ slot e : Nat, winners[slot]? = some e →
      s.rb.read (1 + 9 * slot) = BitVec.ofNat 32 e ∧
      ∀ j : Fin 8, s.rb.read (2 + 9 * slot + j.val) = (s.results (BitVec.ofNat 32 e)).d2[j]) ∧
    (∀ a : Nat, 1 + 9 * winners.length ≤ a → a < 91 → s.rb.read a = 0) ∧
    ((s.hits n).length ≤ capacity → ∀ e ∈ s.hits n, e ∈ winners)

end Sys2Proof.Machine
end

