-- ==== Sys2Proof/Certificates/Slice0/Obligations.lean ====
section
/-! DEFINITION. The statements for the provers. Each says in its docstring which rule it formalises. A state is any state
of the model, whatever its schedule, unless a hypothesis says otherwise. -/

open Sys2Proof Sys2Proof.Machine

/-! ### Encoding -/

/-- The fourteen command bytes of R62 with their operations. -/
def Sys2Proof.Machine.commandTable : List (Byte × Instr) :=
  [(0x10, .kgen), (0x20, .cube), (0x30, .siglen), (0x40, .pack1), (0x50, .pack2), (0x60, .shaiv .first),
   (0x61, .shaiv .second), (0x70, .shacmp .first), (0x71, .shacmp .second), (0x80, .lzn), (0x90, .qual),
   (0xA0, .claim), (0xB0, .record), (0xC0, .done)]

/-- R62, R66: the decoder reads exactly the table, `decode(encode(o)) = o` for every operation, and
`encode(decode(c)) = c` for every valid byte. -/
def Obligations.DecoderReadsTheTable : Prop :=
  (∀ c i, decode c = .ok i ↔ (c, i) ∈ commandTable) ∧
  (∀ i, decode (encode i) = .ok i) ∧
  (∀ c i, decode c = .ok i → encode i = c)

/-- R65: a byte is valid iff it is one of the fourteen; the decoder rejects every other one and the machine refuses it,
whatever the state. The hardwired sequence holds valid bytes only. -/
def Obligations.ReservedBytesAreRefused : Prop :=
  (∀ c : Byte,
    if c ∈ ([0x10, 0x20, 0x30, 0x40, 0x50, 0x60, 0x61, 0x70, 0x71, 0x80, 0x90, 0xA0, 0xB0, 0xC0] : List Byte) then
      (splitCommand c).wellFormed = true ∧ ∃ i, decode c = .ok i ∧ ∀ s, issue c s = exec i s
    else
      (splitCommand c).wellFormed = false ∧ (∃ r, decode c = .error r) ∧
        ∀ s, issue c s = .refused (.reservedCommand c)) ∧
  ∀ upc : Fin 14, (splitCommand (commandAt upc)).wellFormed = true

/-- R61, R66, over programs of any length: decoding the bytes of a program gives it back, and bytes that decode are those
of the program they decode to. No bit of a command word is dropped. -/
def Obligations.ProgramsSurviveEncoding : Prop :=
  (∀ is : List Instr, decodeAll (encodeAll is) = .ok is) ∧
  (∀ (bs : List Byte) (is : List Instr), decodeAll bs = .ok is → encodeAll is = bs)

/-- R69, R130: the sequence holds the fourteen bytes, the operation at each place is the one the table of R130 lists,
and it is `EVAL` with `Q = 1` (R68). -/
def Obligations.SequenceIsTheTable : Prop :=
  sequenceRom = [0x10, 0x20, 0x30, 0x40, 0x60, 0x70, 0x50, 0x61, 0x71, 0x80, 0x90, 0xA0, 0xB0, 0xC0] ∧
  (∀ i, decode (commandAt (positionOf i)) = .ok i) ∧
  decodeAll sequenceRom = .ok (eval true)

/-- R67: the textual form of an operation is read back as the operation, on a line of its own and with any comment after
it. That spaces around it are skipped is the model's choice (log entry 14); with `n = m = 0` there are none. -/
def Obligations.TextIsReadBack : Prop :=
  ∀ (i : Instr) (n m : Nat) (comment : List Char),
    let text := List.replicate n ' ' ++ textOf i ++ List.replicate m ' '
    parseLine text = some i ∧ parseLine (text ++ [';'] ++ comment) = some i

/-! ### The sequencer -/

/-- R131: when the byte at the `upc` of the evaluator that takes the next step decodes to an operation, the step is that
operation carried out for it, followed by the setting of its `upc`. -/
def Obligations.StepRunsTheDecodedOperation : Prop :=
  ∀ (s : State) (e : Nat) (v : Evaluator) (i : Instr),
    s.chosen = some e → s.evaluators[e]? = some v → decode (commandAt v.upc) = .ok i → i.wellFormed = true →
    step s = match exec i (s.select e) with
      | .next t => .next t.advance
      | .fault r => .fault r
      | .refused r => .refused r

/-- R22, R130, R132: a step leaves the `upc` of the evaluator that took it at 11 or 13 after `QUAL`, by `Q`; at 13 after
`DONE`; else one more. -/
def Obligations.StepSetsNextUpc : Prop :=
  ∀ (s t : State) (e : Nat) (v : Evaluator),
    s.chosen = some e → s.evaluators[e]? = some v → step s = .next t →
    ∃ v', t.evaluators[e]? = some v' ∧
      v'.upc.val =
        if v.upc.val = 10 then (if v'.q = .holds true then 11 else 13)
        else if v.upc.val = 13 then 13
        else v.upc.val + 1

/-- R128, R131, R153: an evaluator is chosen only if it has a step, one is chosen unless the batch is complete, and
some schedule gives the next step to any evaluator that has one. -/
def Obligations.AnyUnfinishedEvaluatorMayMove : Prop :=
  (∀ (s : State) (e : Nat), s.chosen = some e → ∃ v, s.evaluators[e]? = some v ∧ v.fin = false) ∧
  (∀ s : State, s.chosen = none ↔ ∀ v ∈ s.evaluators, v.fin = true) ∧
  (∀ (s : State) (e : Nat) (v : Evaluator) (rest : List Nat), s.evaluators[e]? = some v → v.fin = false →
    State.chosen { s with schedule := e :: rest } = some e)

/-- R10, R128: a step of one evaluator leaves every other one as it was, and the launch parameters and the host's moves
too. -/
def Obligations.StepMovesOneEvaluator : Prop :=
  ∀ (s t : State) (e : Nat), s.chosen = some e → step s = .next t →
    t.evaluators.length = s.evaluators.length ∧
    (∀ j, j ≠ e → t.evaluators[j]? = s.evaluators[j]?) ∧
    t.diff = s.diff ∧ t.targetZeros = s.targetZeros ∧ t.startK = s.startK ∧ t.host = s.host ∧ t.turn = e

/-- The placing of a command word (log entry 9): where an evaluator has a step, the next step carries out the operation
of the word for the one that takes it, and nothing but that evaluator's `upc` was changed. -/
def Obligations.PlacedCommandIsTheNextStep : Prop :=
  ∀ (s : State) (e : Nat) (i : Instr), s.chosen = some e →
    let p := s.withFetchWord 8 (encode i).toNat
    (∃ v, s.evaluators[e]? = some v ∧
      p = { s with evaluators := s.evaluators.set e { v with upc := positionOf i } }) ∧
    step p = match exec i (p.select e) with
      | .next t => .next t.advance
      | .fault r => .fault r
      | .refused r => .refused r

/-! ### The twelve operations: what they compute -/

/-- R95: `k` becomes the sum, which does not reach 2^64 under the host's duty; a launch that breaks the duty is refused
(under which name: `LaunchRefusesBrokenPremises`). -/
def Obligations.KgenFormsTheCandidate : Prop :=
  decode 0x10 = .ok .kgen ∧
  (∀ (s : State) (e : Evaluator), s.current = some e → s.startK.toNat + e.index.toNat < 2 ^ 64 →
    ∃ k : Word64, exec .kgen s = .next (s.putCurrent { e with k := .holds k }) ∧
      k.toNat = s.startK.toNat + e.index.toNat) ∧
  ∀ (n : Nat) (s : State), n ≠ 0 → n ≤ 2 ^ 32 - 1 → 2 ^ 64 ≤ s.startK.toNat + n - 1 →
    ∃ r, launch n s = .refused r

/-- The model's choice (log entry 5), where R95 states no result: with a sum of 2^64 or more `KGEN` completes too, and
what it leaves in `k` is some function of `START_K` and the index alone. -/
def Obligations.KgenCompletesPastTheTop : Prop :=
  ∃ f : Word64 → Word → Word64, ∀ (s : State) (e : Evaluator), s.current = some e →
    2 ^ 64 ≤ s.startK.toNat + e.index.toNat →
    exec .kgen s = .next (s.putCurrent { e with k := .holds (f s.startK e.index) })

/-- R98: `val128(X) = ((k * diff)^3 + 2040) mod 2^128`, word `X[j]` being bits `127 - 32*j : 96 - 32*j` of it. -/
def Obligations.CubeComputesTheNonce : Prop :=
  decode 0x20 = .ok .cube ∧
  ∀ (s : State) (e : Evaluator) (k : Word64), s.current = some e → e.k = .holds k →
    ∃ x : Nonce, exec .cube s = .next (s.putCurrent { e with x := .holds x }) ∧
      ∀ j : Fin 4, x[j].toNat = ((k.toNat * s.diff.toNat) ^ 3 + 2040) % 2 ^ 128 / 2 ^ (96 - 32 * j.val) % 2 ^ 32

/-- R104: for every `k` and `diff` the cube is at most `2^128 - 2041` modulo 2^128, so that the final addition of `CUBE` never
carries out and the nonce is the plain sum. -/
def Obligations.FinalAdditionNeverCarries : Prop :=
  ∀ (k : Word64) (diff : Word),
    (k.toNat * diff.toNat) ^ 3 % 2 ^ 128 ≤ 2 ^ 128 - 2041 ∧
    (Nonce.value (cubeNonce k diff)).toNat = (k.toNat * diff.toNat) ^ 3 % 2 ^ 128 + 2040

/-- R99, R100: 16, 12, 8 or 4, by the first word of `X[0], X[1], X[2]` that is not zero; `X[3]` is not looked at. -/
def Obligations.SiglenTestsWholeWords : Prop :=
  decode 0x30 = .ok .siglen ∧
  ∀ (s : State) (e : Evaluator) (x : Nonce), s.current = some e → e.x = .holds x →
    ∃ l : SigLen, exec .siglen s = .next (s.putCurrent { e with l := .holds l }) ∧
      l.bytes = if x[0] ≠ 0 then 16 else if x[1] ≠ 0 then 12 else if x[2] ≠ 0 then 8 else 4

/-- R102: for `k = 0` or `diff = 0` the nonce is 2040 and the length 4; for `k = 1`, `diff = 1` they are 2041 and 4. -/
def Obligations.ZeroAndOneNonces : Prop :=
  ∀ (s : State) (e : Evaluator) (k : Word64), s.current = some e → e.k = .holds k →
    (k = 0 ∨ s.diff = 0 → issueAll [0x20, 0x30] s =
      .next (s.putCurrent { e with x := .holds #v[0, 0, 0, 0x7F8], l := .holds .four })) ∧
    (k = 1 → s.diff = 1 → issueAll [0x20, 0x30] s =
      .next (s.putCurrent { e with x := .holds #v[0, 0, 0, 0x7F9], l := .holds .four }))

/-- R105: the marker, the low `L` bytes of the nonce in big-endian order, `0x80`, zeros up to offset 61, and the bit
length `(4 + L) * 8` in two big-endian bytes; `L` alone chooses the layout. -/
def Obligations.Pack1BuildsBlockOne : Prop :=
  decode 0x40 = .ok .pack1 ∧
  ∀ (s : State) (e : Evaluator) (x : Nonce) (l : SigLen), s.current = some e → e.x = .holds x → e.l = .holds l →
    ∃ b : Block, exec .pack1 s = .next (s.putCurrent { e with b1 := .holds b }) ∧
      b.toList = ([0x48, 0x41, 0x48, 0x41] : List Byte) ++
        (be32 x[0] ++ be32 x[1] ++ be32 x[2] ++ be32 x[3]).drop (16 - l.bytes) ++
        [0x80] ++ List.replicate (57 - l.bytes) 0x00 ++
        [BitVec.ofNat 8 ((4 + l.bytes) * 8 / 256), BitVec.ofNat 8 ((4 + l.bytes) * 8 % 256)]

/-- R106: the length field of MessageBlockOne is `00 40`, `00 60`, `00 80` or `00 A0`, for `L` = 4, 8, 12, 16. -/
def Obligations.BlockOneLengthField : Prop :=
  ∀ (x : Nonce) (l : SigLen),
    (blockOne x l)[62] = 0x00 ∧
    (blockOne x l)[63] = match l with
      | .four => 0x40
      | .eight => 0x60
      | .twelve => 0x80
      | .sixteen => 0xA0

/-- R107: the 32 bytes of the first digest, word 0 first and each word big-endian, `0x80`, 29 zeros, `01 00`. -/
def Obligations.Pack2BuildsBlockTwo : Prop :=
  decode 0x50 = .ok .pack2 ∧
  ∀ (s : State) (e : Evaluator) (d : Digest), s.current = some e → e.d1 = .holds d →
    ∃ b : Block, exec .pack2 s = .next (s.putCurrent { e with b2 := .holds b }) ∧
      b.toList = be32 d[0] ++ be32 d[1] ++ be32 d[2] ++ be32 d[3] ++ be32 d[4] ++ be32 d[5] ++ be32 d[6] ++ be32 d[7] ++
        [0x80] ++ List.replicate 29 0x00 ++ [0x01, 0x00]

/-- R108, R110: each block is the standard's single-block padding of its payload, though only two length bytes are
ever written. -/
def Obligations.BlocksAreStandardPadding : Prop :=
  (∀ (x : Nonce) (l : SigLen),
    blockOne x l =
      padBlock (([0x48, 0x41, 0x48, 0x41] : List Byte) ++ (be32 x[0] ++ be32 x[1] ++ be32 x[2] ++ be32 x[3]).drop (16 - l.bytes))) ∧
  (∀ d : Digest, blockTwo d = padBlock (Digest.bytes d))

/-- R76, R78: `IV[i]` is the first 32 bits of the fractional part of the square root of the `i`-th prime, `K[t]` of the
cube root of the `t`-th; there are 64 of the latter. -/
def Obligations.ConstantsComeFromPrimes : Prop :=
  let primes := (List.range 312).filter fun p => 2 ≤ p && (List.range p).all fun d => d < 2 || p % d != 0
  primes.length = 64 ∧ roundConstants.length = 64 ∧
  (∀ i : Fin 8, iv[i].toNat = Nat.sqrt (primes.getD i.val 0 * 2 ^ 64) % 2 ^ 32) ∧
  (∀ t : Fin 64, ∃ whole : Fin 8,
    (whole.val * 2 ^ 32 + (roundConstants.getD t.val 0).toNat) ^ 3 ≤ primes.getD t.val 0 * 2 ^ 96 ∧
    primes.getD t.val 0 * 2 ^ 96 < (whole.val * 2 ^ 32 + (roundConstants.getD t.val 0).toNat + 1) ^ 3)

/-- R77, R79 to R86: the compression of a block is the schedule `W`, the working variables `V` of the 64 rounds and the
feedback, each as its rule gives it, with the rotations as rotations and the block's bytes read big-endian. -/
def Obligations.CompressionFollowsTheStandard : Prop :=
  ∀ (hin : Digest) (m : Block), ∃ (W : Nat → Word) (V : Nat → Working),
    (∀ t (h : t < 16), (W t).toNat = m[4 * t].toNat * 2 ^ 24 + m[4 * t + 1].toNat * 2 ^ 16 +
      m[4 * t + 2].toNat * 2 ^ 8 + m[4 * t + 3].toNat) ∧
    (∀ t, 16 ≤ t → t < 64 → W t =
      ((W (t - 2)).rotateRight 17 ^^^ (W (t - 2)).rotateRight 19 ^^^ W (t - 2) >>> 10) + W (t - 7) +
      ((W (t - 15)).rotateRight 7 ^^^ (W (t - 15)).rotateRight 18 ^^^ W (t - 15) >>> 3) + W (t - 16)) ∧
    V 0 = ⟨hin[0], hin[1], hin[2], hin[3], hin[4], hin[5], hin[6], hin[7]⟩ ∧
    (∀ t, t < 64 →
      let v := V t
      let t1 := v.h + (v.e.rotateRight 6 ^^^ v.e.rotateRight 11 ^^^ v.e.rotateRight 25) +
        ((v.e &&& v.f) ^^^ (~~~ v.e &&& v.g)) + roundConstants.getD t 0 + W t
      let t2 := (v.a.rotateRight 2 ^^^ v.a.rotateRight 13 ^^^ v.a.rotateRight 22) +
        ((v.a &&& v.b) ^^^ (v.a &&& v.c) ^^^ (v.b &&& v.c))
      V (t + 1) = ⟨t1 + t2, v.a, v.b, v.c, v.d + t1, v.e, v.f, v.g⟩) ∧
    (compress hin m).toList =
      [hin[0] + (V 64).a, hin[1] + (V 64).b, hin[2] + (V 64).c, hin[3] + (V 64).d,
       hin[4] + (V 64).e, hin[5] + (V 64).f, hin[6] + (V 64).g, hin[7] + (V 64).h]

/-- R87: `Dsel(p)` becomes the eight words of `IV`, whatever it held; the other pass's registers are left alone. -/
def Obligations.ShaivLoadsTheVector : Prop :=
  decode 0x60 = .ok (.shaiv .first) ∧ decode 0x61 = .ok (.shaiv .second) ∧
  ∀ (s : State) (e : Evaluator), s.current = some e →
    let vector : Digest := #v[0x6a09e667, 0xbb67ae85, 0x3c6ef372, 0xa54ff53a, 0x510e527f, 0x9b05688c, 0x1f83d9ab, 0x5be0cd19]
    exec (.shaiv .first) s = .next (s.putCurrent { e with d1 := .holds vector }) ∧
    exec (.shaiv .second) s = .next (s.putCurrent { e with d2 := .holds vector })

/-- R88: `Dsel(p) <- compress(Dsel(p), Bsel(p))`, the block and the other pass's registers left alone; `NOVAL` in either
is a fault of the model. -/
def Obligations.ShacmpCompressesInPlace : Prop :=
  decode 0x70 = .ok (.shacmp .first) ∧ decode 0x71 = .ok (.shacmp .second) ∧
  ∀ (s : State) (e : Evaluator), s.current = some e →
    (∀ (d : Digest) (b : Block), e.d1 = .holds d → e.b1 = .holds b →
      exec (.shacmp .first) s = .next (s.putCurrent { e with d1 := .holds (compress d b) })) ∧
    (∀ (d : Digest) (b : Block), e.d2 = .holds d → e.b2 = .holds b →
      exec (.shacmp .second) s = .next (s.putCurrent { e with d2 := .holds (compress d b) })) ∧
    (e.d1 = .noval ∨ e.b1 = .noval → ∃ r, exec (.shacmp .first) s = .fault (.readNoval r)) ∧
    (e.d2 = .noval ∨ e.b2 = .noval → ∃ r, exec (.shacmp .second) s = .fault (.readNoval r))

/-- R113: `Z` is the number of hexadecimal digits 0 before the first nonzero one of the digest written as 64 digits, or 64
if all are zero. -/
def Obligations.LznCountsLeadingZeroDigits : Prop :=
  decode 0x80 = .ok .lzn ∧
  ∀ (s : State) (e : Evaluator) (d : Digest), s.current = some e → e.d2 = .holds d →
    ∃ z : Fin 65, exec .lzn s = .next (s.putCurrent { e with z := .holds z }) ∧
      (∀ i, i < z.val → hexDigit (Digest.value d) i = 0) ∧
      (z.val < 64 → hexDigit (Digest.value d) z.val ≠ 0)

/-- R115: the count is a prefix property: digests that agree in their first `Z + 1` digits have the same count; and a digest
with at least `target_zeros` leading zero digits is exactly one that qualifies. -/
def Obligations.CountIsAPrefixProperty : Prop :=
  (∀ d d' : Digest,
    (∀ i, i ≤ (digestZeros d).val → i < 64 → hexDigit (Digest.value d') i = hexDigit (Digest.value d) i) →
    digestZeros d' = digestZeros d) ∧
  ∀ (d : Digest) (targetZeros : Word),
    qualifies (digestZeros d) targetZeros = true ↔
      targetZeros.toNat ≤ 64 ∧ ∀ i, i < targetZeros.toNat → hexDigit (Digest.value d) i = 0

/-- R114, R25: `Q` is 1 iff `Z >= TARGET_ZEROS` as natural numbers; a threshold of 0 always qualifies, one above 64
never. -/
def Obligations.QualComparesWithTheThreshold : Prop :=
  decode 0x90 = .ok .qual ∧
  ∀ (s : State) (e : Evaluator) (z : Fin 65), s.current = some e → e.z = .holds z →
    ∃ q : Bool, exec .qual s = .next (s.putCurrent { e with q := .holds q }) ∧
      (q = true ↔ s.targetZeros.toNat ≤ z.val) ∧
      (s.targetZeros = 0 → q = true) ∧ (64 < s.targetZeros.toNat → q = false)

/-- R118: `S` is the counter before and the counter one more, whatever it was below 2^32 - 1 (R56 keeps it there). In a
batch only an evaluator with `Q = 1` comes to `CLAIM`, and only one that has no slot index yet. -/
def Obligations.ClaimTakesTheOldCount : Prop :=
  decode 0xA0 = .ok .claim ∧
  (∀ (s : State) (e : Evaluator), s.current = some e → (s.rb.read 0).toNat < 2 ^ 32 - 1 →
    ∃ t : State, exec .claim s = .next t ∧ t.current = some { e with s := .holds (s.rb.read 0) } ∧
      (t.rb.read 0).toNat = (s.rb.read 0).toNat + 1 ∧ ∀ a, a ≠ 0 → t.rb.read a = s.rb.read a) ∧
  ∀ (s : State) (e : Evaluator), s.BatchInv → e ∈ s.evaluators → e.upc.val = 11 → e.q = .holds true ∧ e.s = .noval

/-- The model's choice (log entry 6), where R56 states no result: at 2^32 - 1 `CLAIM` completes too, with `S` the old value
and every word but the counter as it was; what the counter then holds is not said. -/
def Obligations.ClaimCompletesAtTheTop : Prop :=
  ∀ (s : State) (e : Evaluator), s.current = some e → (s.rb.read 0).toNat = 2 ^ 32 - 1 →
    ∃ t : State, exec .claim s = .next t ∧ t.current = some { e with s := .holds 0xFFFFFFFF } ∧
      ∀ a, a ≠ 0 → t.rb.read a = s.rb.read a

/-- R119: with `S < 10` the index and the eight words of `D2` stand in slot `S` and every other word is as it was; with
`S >= 10` nothing is written. -/
def Obligations.RecordFillsTheSlot : Prop :=
  decode 0xB0 = .ok .record ∧
  ∀ (s : State) (e : Evaluator) (slot : Word), s.current = some e → e.s = .holds slot →
    if slot.toNat < 10 then
      ∀ d : Digest, e.d2 = .holds d →
        ∃ t : State, exec .record s = .next t ∧ t.evaluators = s.evaluators ∧
          t.rb.read (1 + 9 * slot.toNat) = e.index ∧
          (∀ j : Fin 8, t.rb.read (2 + 9 * slot.toNat + j.val) = d[j]) ∧
          ∀ a, ¬ (1 + 9 * slot.toNat ≤ a ∧ a ≤ 9 + 9 * slot.toNat) → t.rb.read a = s.rb.read a
    else exec .record s = .next s

/-- R120: no operation, in any state, addresses a word that does not exist or lists one above 90; an excess hit goes up the
counter (as every `CLAIM` does) and writes nothing. -/
def Obligations.NoOperationOverrunsTheBuffer : Prop :=
  (∀ (i : Instr) (s : State) (a : Nat), exec i s ≠ .fault (.noSuchWord a)) ∧
  (∀ (i : Instr) (s t : State), s.rb.wf → exec i s = .next t → t.rb.wf) ∧
  ∀ (s : State) (e : Evaluator), s.current = some e →
    (10 ≤ (s.rb.read 0).toNat → (s.rb.read 0).toNat < 2 ^ 32 - 1 →
      ∃ t : State, exec .claim s = .next t ∧ (t.rb.read 0).toNat = (s.rb.read 0).toNat + 1 ∧
        t.current = some { e with s := .holds (s.rb.read 0) }) ∧
    (∀ slot : Word, e.s = .holds slot → 10 ≤ slot.toNat → exec .record s = .next s)

/-- R133: `fin` becomes 1 and nothing else changes. -/
def Obligations.DoneFinishesTheTask : Prop :=
  decode 0xC0 = .ok .done ∧
  ∀ (s : State) (e : Evaluator), s.current = some e → exec .done s = .next (s.putCurrent { e with fin := true })

/-- R11: every operation that reads a private register faults on `NOVAL` in it. Which register the fault names where an
operation reads two that hold `NOVAL` (`PACK1` `X` before `L`, `SHACMP` the digest before the block), and that `RECORD` reads
`D2` only where it has a slot, is the model's reading of the pseudocode's order (log entry 1, DEDUCED). -/
def Obligations.ReadingNovalFaults : Prop :=
  ∀ (s : State) (e : Evaluator), s.current = some e →
    (e.k = .noval → exec .cube s = .fault (.readNoval .k)) ∧
    (e.x = .noval → exec .siglen s = .fault (.readNoval .x) ∧ exec .pack1 s = .fault (.readNoval .x)) ∧
    (∀ x, e.x = .holds x → e.l = .noval → exec .pack1 s = .fault (.readNoval .l)) ∧
    (e.d1 = .noval → exec .pack2 s = .fault (.readNoval .d1) ∧ exec (.shacmp .first) s = .fault (.readNoval .d1)) ∧
    (∀ d, e.d1 = .holds d → e.b1 = .noval → exec (.shacmp .first) s = .fault (.readNoval .b1)) ∧
    (e.d2 = .noval → exec (.shacmp .second) s = .fault (.readNoval .d2) ∧ exec .lzn s = .fault (.readNoval .d2)) ∧
    (∀ d, e.d2 = .holds d → e.b2 = .noval → exec (.shacmp .second) s = .fault (.readNoval .b2)) ∧
    (e.z = .noval → exec .qual s = .fault (.readNoval .z)) ∧
    (e.s = .noval → exec .record s = .fault (.readNoval .s)) ∧
    (∀ v : Word, e.s = .holds v → v.toNat < 10 → e.d2 = .noval → exec .record s = .fault (.readNoval .d2))

/-! ### The twelve operations: what they leave alone -/

/-- R10, R18, R21, R130 (Writes): every operation leaves every private register but the one it writes, the micro-pc, the
index, every other evaluator and the launch parameters as they were; only `QUAL` writes `Q`, only `DONE` writes
`fin`. -/
def Obligations.OperationsWriteOneRegister : Prop :=
  ∀ (i : Instr) (s t : State), exec i s = .next t →
    t.diff = s.diff ∧ t.targetZeros = s.targetZeros ∧ t.startK = s.startK ∧ t.turn = s.turn ∧
    t.schedule = s.schedule ∧ t.turns = s.turns ∧ t.host = s.host ∧
    t.evaluators.length = s.evaluators.length ∧ (∀ j, j ≠ s.turn → t.evaluators[j]? = s.evaluators[j]?) ∧
    ∃ e e', s.current = some e ∧ t.current = some e' ∧ e'.index = e.index ∧ e'.upc = e.upc ∧
      (i ≠ .kgen → e'.k = e.k) ∧ (i ≠ .cube → e'.x = e.x) ∧ (i ≠ .siglen → e'.l = e.l) ∧
      (i ≠ .pack1 → e'.b1 = e.b1) ∧ (i ≠ .pack2 → e'.b2 = e.b2) ∧
      (i ≠ .shaiv .first → i ≠ .shacmp .first → e'.d1 = e.d1) ∧
      (i ≠ .shaiv .second → i ≠ .shacmp .second → e'.d2 = e.d2) ∧
      (i ≠ .lzn → e'.z = e.z) ∧ (i ≠ .qual → e'.q = e.q) ∧ (i ≠ .claim → e'.s = e.s) ∧ (i ≠ .done → e'.fin = e.fin)

/-- R45, R49, R129: ten of the twelve operations leave every word of ResultBuffer as it was; `CLAIM` every word but word
0; `RECORD` every word but the nine of slot `S`, and all of them where `S >= 10`. -/
def Obligations.OperationsWriteOnlyTheirWords : Prop :=
  ∀ (i : Instr) (s t : State), exec i s = .next t →
    (i ≠ .claim → i ≠ .record → ∀ a, t.rb.read a = s.rb.read a) ∧
    (i = .claim → ∀ a, a ≠ 0 → t.rb.read a = s.rb.read a) ∧
    (i = .record → ∃ e v, s.current = some e ∧ e.s = .holds v ∧
      ∀ a, ¬ (v.toNat < capacity ∧ slotBase v.toNat ≤ a ∧ a < slotBase v.toNat + slotWords) →
        t.rb.read a = s.rb.read a)

/-- R9, R129: what a private operation leaves in an evaluator depends on that evaluator and the launch parameters alone:
not on ResultBuffer, on other evaluators, on the schedule or on the host. -/
def Obligations.PrivateOperationsSeeNothingElse : Prop :=
  ∀ (i : Instr) (s s' t : State), i ≠ .claim → i ≠ .record →
    s'.diff = s.diff → s'.targetZeros = s.targetZeros → s'.startK = s.startK → s'.current = s.current →
    exec i s = .next t → ∃ t', exec i s' = .next t' ∧ t'.current = t.current

/-! ### ResultBuffer -/

/-- R40, R47: a word read is the one last written there, and a write changes no other word. -/
def Obligations.ReadAfterWrite : Prop :=
  ∀ (m : Memory) (a b : Nat) (v : Word),
    (m.write a v).read a = v ∧ (b ≠ a → (m.write a v).read b = m.read b)

/-- R125: word writes to different places may be made in either order. -/
def Obligations.WritesCommute : Prop :=
  ∀ (m : Memory) (a b : Nat) (v w : Word), m.wf → a ≠ b → (m.write a v).write b w = (m.write b w).write a v

/-- R40: every step of the machine, an evaluator's or the host's, keeps ResultBuffer in canonical form, with no word above
90 in it. -/
def Obligations.StepsKeepTheBufferCanonical : Prop :=
  ∀ s t : State, s.rb.wf → step s = .next t → t.rb.wf

/-- R56: while a batch runs the counter goes up by exactly one at each `CLAIM` and is not changed otherwise, as long as it
has not reached 2^32 - 1. -/
def Obligations.CounterGoesUpByOneAtClaims : Prop :=
  ∀ (s t : State) (e : Nat) (v : Evaluator), s.chosen = some e → s.evaluators[e]? = some v → step s = .next t →
    (s.rb.read 0).toNat < 2 ^ 32 - 1 →
    (t.rb.read 0).toNat = if v.upc.val = 11 then (s.rb.read 0).toNat + 1 else (s.rb.read 0).toNat

/-! ### The host's side -/

/-- R34, R135, R170: a launch that meets the premises creates `n` evaluators, indices `0 .. n-1`, each with `upc = 0`,
`fin = 0` and every other private register `NOVAL`, and changes nothing shared. -/
def Obligations.LaunchCreatesFreshEvaluators : Prop :=
  ∀ (n : Nat) (s : State), n ≤ 2 ^ 32 - 1 → (n = 0 ∨ s.startK.toNat + n - 1 < 2 ^ 64) →
    (∀ a, a < 91 → s.rb.lookup a = some 0) →
    ∃ t : State, launch n s = .next t ∧ t.evaluators.length = n ∧
      (∀ j, j < n → ∃ e, t.evaluators[j]? = some e ∧ e.index.toNat = j ∧ e.upc = 0 ∧ e.fin = false ∧
        e.k = .noval ∧ e.x = .noval ∧ e.l = .noval ∧ e.b1 = .noval ∧ e.d1 = .noval ∧ e.b2 = .noval ∧ e.d2 = .noval ∧
        e.z = .noval ∧ e.q = .noval ∧ e.s = .noval) ∧
      t.rb = s.rb ∧ t.diff = s.diff ∧ t.targetZeros = s.targetZeros ∧ t.startK = s.startK

/-- R170 (P8 of 95_test_vectors.md): a launch that breaks `BatchFits`, `NoKOverflow` or `BufferZero` is refused, by the name of the
first premise broken in that order. -/
def Obligations.LaunchRefusesBrokenPremises : Prop :=
  ∀ (n : Nat) (s : State),
    if 2 ^ 32 - 1 < n then launch n s = .refused .launchTooLarge
    else if n ≠ 0 ∧ 2 ^ 64 ≤ s.startK.toNat + n - 1 then launch n s = .refused .launchKOverflow
    else (∃ a, a < 91 ∧ s.rb.lookup a ≠ some 0) → launch n s = .refused .launchBufferNotZero

/-- R169, R135: from any state between batches, `evaluate_batch` under its premises takes the host five moves and leaves
the evaluators launched on a zeroed buffer with the arguments in the parameters. -/
def Obligations.EvaluateBatchLaunches : Prop :=
  ∀ (s : State) (n : Nat) (diff targetZeros : Word) (startK : Word64),
    (∀ v ∈ s.evaluators, v.fin = true) → n ≤ 2 ^ 32 - 1 → (n = 0 ∨ startK.toNat + n - 1 < 2 ^ 64) →
    ∃ t : State, Sys2Proof.core.run 5 { s with host := evaluateBatch n diff targetZeros startK } = .next t ∧
      t.evaluators = freshEvaluators n ∧ t.diff = diff ∧ t.targetZeros = targetZeros ∧ t.startK = startK ∧
      (∀ a, a < 91 → t.rb.lookup a = some 0) ∧ t.schedule = s.schedule ∧ t.host = []

/-- R28, R164, R166, R168: while an evaluator has a step left, no step changes the launch parameters or makes a move of
the host, and a move made then would be refused. -/
def Obligations.HostIsQuietDuringABatch : Prop :=
  (∀ s t : State, s.complete = false → step s = .next t →
    t.diff = s.diff ∧ t.targetZeros = s.targetZeros ∧ t.startK = s.startK ∧ t.host = s.host) ∧
  (∀ (s : State) (a : HostAction), s.complete = false → hostAct a s = .refused .hostDuringBatch) ∧
  (∀ (s : State) (a : Nat), s.complete = false → s.hostRead a = none)

/-- R36: nothing private survives a batch: where the host makes its next move, what the machine becomes does not depend on
the evaluators of the batch before, and every evaluator there is then is a freshly launched one. -/
def Obligations.NothingPrivateSurvives : Prop :=
  ∀ (s : State) (old : List Evaluator) (turn : Nat) (a : HostAction) (rest : List HostAction),
    s.complete = true → (∀ v ∈ old, v.fin = true) →
    step { s with evaluators := old, turn := turn, host := a :: rest } = step { s with host := a :: rest } ∧
    ∀ t, step { s with host := a :: rest } = .next t → ∀ v ∈ t.evaluators, ∃ index, v = Evaluator.fresh index

/-- R35, R161: after power-on no evaluator exists, no word of ResultBuffer is known, and nothing happens before the host
acts. (That the control registers then read 0 is the model's choice, log entry 4, and is not said here.) -/
def Obligations.PowerOnHasNoEvaluator : Prop :=
  State.reset.evaluators = [] ∧ (∀ a, State.reset.rb.lookup a = none) ∧ State.reset.complete = true ∧
  step State.reset = .fault .atRest ∧
  ∀ i : Instr, exec i State.reset = .fault .noEvaluator

/-! ### The invariant of a batch, and what it gives -/

/-- The invariant holds after power-on. -/
def Obligations.ResetMeetsTheBatchInvariant : Prop := State.reset.BatchInv

/-- R34, R170: a launch under its premises establishes the invariant, for every state that keeps ResultBuffer
canonical. -/
def Obligations.LaunchEstablishesTheInvariant : Prop :=
  ∀ (n : Nat) (s t : State), s.rb.wf → launch n s = .next t → t.BatchInv

/-- R9, R50, R51, R121, R130: every step of the machine keeps the invariant: whatever the schedule, every evaluator's
registers are those of the hardwired sequence, the counter is the number of claims, no slot index is held twice, and the
slots hold exactly the findings recorded. -/
def Obligations.StepsKeepTheBatchInvariant : Prop :=
  ∀ s t : State, s.BatchInv → step s = .next t → t.BatchInv

/-- R131, R138, R140: while a batch runs every step succeeds, and brings the batch exactly one step nearer its end;
nothing is left to do iff the batch is complete. -/
def Obligations.EveryStepOfABatchSucceeds : Prop :=
  (∀ (s : State) (e : Nat), s.BatchInv → s.chosen = some e →
    ∃ t : State, step s = .next t ∧ t.stepsLeft + 1 = s.stepsLeft) ∧
  (∀ s : State, s.BatchInv → (s.stepsLeft = 0 ↔ s.complete = true))

/-- R139: at the completion of a batch ResultBuffer is what R139 promises: the counter, the slots with their distinct
qualifying indices and digests, zero elsewhere, and every hit recorded where there are at most ten. -/
def Obligations.CompleteBatchLeavesFinalBuffer : Prop :=
  ∀ s : State, s.BatchInv → s.complete = true → s.evaluators ≠ [] → s.FinalBuffer s.evaluators.length

/-- R122: at the completion of a batch with `H` hits the slot indices taken are exactly `0 .. H-1`, each once. -/
def Obligations.SlotIndicesAreContiguous : Prop :=
  ∀ s : State, s.BatchInv → s.complete = true →
    (s.evaluators.filterMap fun e => match e.s with | .holds v => some v.toNat | .noval => none).Perm
      (List.range (s.hits s.evaluators.length).length)

/-- R126: every populated slot's digest is the independently computed one for its recorded index, and the host recovers
the winning candidate from it. -/
def Obligations.PopulatedSlotsHoldRecomputedDigests : Prop :=
  ∀ (s : State) (slot : Nat), s.BatchInv → s.complete = true → s.evaluators ≠ [] → slot < s.populated →
    ∃ e, e < s.evaluators.length ∧ s.rb.read (1 + 9 * slot) = BitVec.ofNat 32 e ∧
      s.recoveredK slot = s.startK.toNat + e ∧
      taskQualifies (s.startK.toNat + e) s.diff.toNat s.targetZeros.toNat = true ∧
      ∀ j : Fin 8, s.rb.read (2 + 9 * slot + j.val) = (taskDigest (s.startK.toNat + e) s.diff.toNat)[j]

/-- R110, R134: the eleven private operations, issued in the order of the sequence for an evaluator whatever its registers
held, run to the end and leave the results in them, nothing else changed; and for a candidate below 2^64 the results are
the task-level function: the length, the digest of `SHA256(SHA256("HAHA" ++ ...))`, its count and its verdict. -/
def Obligations.OperationsRefineTheTask : Prop :=
  ∀ (s : State) (index : Word), s.startK.toNat + index.toNat < 2 ^ 64 →
    let k := s.startK.toNat + index.toNat
    let r := s.results index
    (∀ e : Evaluator, s.current = some e → e.index = index →
      issueAll [0x10, 0x20, 0x30, 0x40, 0x60, 0x70, 0x50, 0x61, 0x71, 0x80, 0x90] s =
        .next (s.putCurrent { e with
          k := .holds r.k, x := .holds r.x, l := .holds r.l, b1 := .holds r.b1, d1 := .holds r.d1, b2 := .holds r.b2,
          d2 := .holds r.d2, z := .holds r.z, q := .holds r.q })) ∧
    r.k.toNat = k ∧
    (Nonce.value r.x).toNat = taskNonce k s.diff.toNat ∧
    r.l.bytes = taskLength (taskNonce k s.diff.toNat) ∧
    r.d2 = taskDigest k s.diff.toNat ∧
    r.z.val = taskZeros (taskDigest k s.diff.toNat) ∧
    r.q = taskQualifies k s.diff.toNat s.targetZeros.toNat

/-- R138, R139 (V61 of 95_test_vectors.md): whatever the schedule, a batch of `n` evaluators of which `H` qualify runs to completion
in exactly `12 * (n - H) + 14 * H` steps, and leaves ResultBuffer as R139 promises. -/
def Obligations.BatchRunsToItsFinalBuffer : Prop :=
  ∀ (n : Nat) (s0 s : State), s0.rb.wf → launch n s0 = .next s →
    ∃ t : State, Sys2Proof.core.run (12 * (n - (s.hits n).length) + 14 * (s.hits n).length) s = .next t ∧
      t.complete = true ∧ t.FinalBuffer n ∧ t.diff = s.diff ∧ t.targetZeros = s.targetZeros ∧
      t.startK = s.startK

/-- R9, R123, R139, R153: the schedule decides nothing but which slot a hit gets, and which hits are recorded where there are
more than ten. Under any two schedules the same batch ends with the same launch parameters, the same private registers but
`S`, the same counter and the same words past the claimed slots; with at most ten hits each slot of one run stands, word
for word, in a slot of the other; and in either run, however many hits there are, the slots hold distinct hits, each with
its own digest (`FinalBuffer`). -/
def Obligations.ScheduleDecidesOnlySlots : Prop :=
  ∀ (n : Nat) (s0 s : State) (one other : List Nat), s0.rb.wf → launch n s0 = .next s →
    let hits := (s.hits n).length
    ∃ t t' : State,
      Sys2Proof.core.run (12 * (n - hits) + 14 * hits) { s with schedule := one } = .next t ∧
      Sys2Proof.core.run (12 * (n - hits) + 14 * hits) { s with schedule := other } = .next t' ∧
      t.evaluators.map (fun e => { e with s := .noval }) = t'.evaluators.map (fun e => { e with s := .noval }) ∧
      t.diff = t'.diff ∧ t.targetZeros = t'.targetZeros ∧ t.startK = t'.startK ∧
      t.rb.read 0 = t'.rb.read 0 ∧
      (∀ a, 1 + 9 * min hits 10 ≤ a → a < 91 → t.rb.read a = t'.rb.read a) ∧
      t.FinalBuffer n ∧ t'.FinalBuffer n ∧
      (hits ≤ 10 → ∀ slot, slot < hits → ∃ slot', slot' < hits ∧
        ∀ j : Fin 9, t.rb.read (1 + 9 * slot + j.val) = t'.rb.read (1 + 9 * slot' + j.val))

/-! ### What the host reads and writes -/

/-- R52, R137 (H8, H9): once the batch is complete the host reads every word of ResultBuffer, and nothing above word 90; of a
batch it then sees the number of hits, and in every populated slot the index of a qualifying evaluator with the eight words
of its digest. -/
def Obligations.HostReadsTheBufferAfterCompletion : Prop :=
  ∀ s : State, s.complete = true →
    (∀ a, a < 91 → s.hostRead a = some (s.rb.read a)) ∧
    (∀ a, 91 ≤ a → s.hostRead a = none) ∧
    (s.BatchInv → s.evaluators ≠ [] →
      ∃ count : Word, s.hostRead 0 = some count ∧ count.toNat = (s.hits s.evaluators.length).length ∧
        ∀ slot, slot < min count.toNat 10 → ∃ e, e ∈ s.hits s.evaluators.length ∧
          s.hostRead (1 + 9 * slot) = some (BitVec.ofNat 32 e) ∧ s.recoveredK slot = s.startK.toNat + e ∧
          ∀ j : Fin 8, s.hostRead (2 + 9 * slot + j.val) = some (taskDigest (s.startK.toNat + e) s.diff.toNat)[j])

/-- R149, R163, R137 (H2, H3): between batches a move of the host changes the word or the parameter it names, or zeroes the
91 words, and nothing else shared; the evaluators of the batch before are gone (R36). The queue of moves is the model's
own (log entry 8), and so is the name of the stop at a word above 90, which does not exist (R40; log entry 13). -/
def Obligations.HostMovesChangeWhatTheyName : Prop :=
  ∀ (s : State) (rest : List HostAction), s.complete = true →
    let after (a : HostAction) := step { s with host := a :: rest }
    let idle : State := { s with host := rest, evaluators := [], turn := 0 }
    (∀ (w : Nat) (v : Word), w < 91 → ∃ m : Memory,
      after (.writeWord w v) = .next { idle with rb := m } ∧ m.read w = v ∧ ∀ a, a ≠ w → m.read a = s.rb.read a) ∧
    (∀ (w : Nat) (v : Word), 91 ≤ w → after (.writeWord w v) = .fault (.noSuchWord w)) ∧
    (∃ m : Memory, after .zeroBuffer = .next { idle with rb := m } ∧ ∀ a, a < 91 → m.lookup a = some 0) ∧
    (∀ v : Word, after (.writeDiff v) = .next { idle with diff := v }) ∧
    (∀ v : Word, after (.writeTargetZeros v) = .next { idle with targetZeros := v }) ∧
    (∀ v : Word64, after (.writeStartK v) = .next { idle with startK := v })
end

