-- ==== Sys2Proof/Laws/Memory.lean ====
section
/-! SUPPORT. The laws of ResultBuffer: a read after a write, the canonical form, and what the shared operations over it can
do. -/

namespace Sys2Proof.Machine

@[simp] theorem Memory.lookup_nil (a : Nat) : Memory.lookup [] a = none := rfl

/-- A word that was just written is the one read. -/
@[simp] theorem Memory.lookup_write_same (m : Memory) (a : Nat) (v : Word) : (m.write a v).lookup a = some v := by
  induction m with
  | nil => simp [Memory.write, Memory.lookup]
  | cons c m ih =>
    obtain ⟨b, w⟩ := c
    unfold Memory.write
    split
    · simp [Memory.lookup]
    · split
      · simp [Memory.lookup]
      · simp [Memory.lookup, *]

/-- A write leaves every other word as it was. -/
theorem Memory.lookup_write_ne (m : Memory) {a b : Nat} (v : Word) (h : b ≠ a) :
    (m.write a v).lookup b = m.lookup b := by
  induction m with
  | nil => simp [Memory.write, Memory.lookup, h]
  | cons c m ih =>
    obtain ⟨d, w⟩ := c
    unfold Memory.write
    split
    · simp [Memory.lookup, h]
    · split
      · rename_i _ he; subst he; simp [Memory.lookup, h]
      · simp [Memory.lookup, ih]

@[simp] theorem Memory.read_write_same (m : Memory) (a : Nat) (v : Word) : (m.write a v).read a = v := by
  simp [Memory.read]

theorem Memory.read_write_ne (m : Memory) {a b : Nat} (v : Word) (h : b ≠ a) : (m.write a v).read b = m.read b := by
  simp [Memory.read, Memory.lookup_write_ne m v h]

/-- A listed word reads as what is listed. -/
theorem Memory.read_of_lookup {m : Memory} {a : Nat} {v : Word} (h : m.lookup a = some v) : m.read a = v := by
  simp [Memory.read, h]

/-- The cells of a written memory are the new one and old ones. -/
theorem Memory.mem_write {m : Memory} {a : Nat} {v : Word} {c : Nat × Word} (h : c ∈ m.write a v) :
    c = (a, v) ∨ c ∈ m := by
  induction m with
  | nil => simpa [Memory.write] using h
  | cons d m ih =>
    obtain ⟨b, w⟩ := d
    unfold Memory.write at h
    split at h
    · simpa using h
    · split at h
      · rcases List.mem_cons.mp h with h | h
        · exact .inl h
        · exact .inr (List.mem_cons_of_mem _ h)
      · rcases List.mem_cons.mp h with h | h
        · exact .inr (h ▸ List.mem_cons_self)
        · exact (ih h).imp id (List.mem_cons_of_mem _)

/-- A write of a word that exists keeps the canonical form. -/
theorem Memory.write_wf {m : Memory} (hm : m.wf) {a : Nat} (ha : a < rbWords) (v : Word) : (m.write a v).wf := by
  refine ⟨?_, fun c hc => ?_⟩
  · obtain ⟨hp, -⟩ := hm
    clear ha
    induction m with
    | nil => simp [Memory.write]
    | cons d m ih =>
      obtain ⟨b, w⟩ := d
      obtain ⟨hb, htail⟩ := List.pairwise_cons.mp hp
      unfold Memory.write
      split
      · rename_i hab
        refine List.pairwise_cons.mpr ⟨fun c hc => ?_, hp⟩
        rcases List.mem_cons.mp hc with rfl | hc
        · exact hab
        · exact Nat.lt_trans hab (hb c hc)
      · split
        · rename_i hab; subst hab
          exact List.pairwise_cons.mpr ⟨hb, htail⟩
        · refine List.pairwise_cons.mpr ⟨fun c hc => ?_, ih htail⟩
          rcases Memory.mem_write hc with rfl | hc
          · simp only; omega
          · exact hb c hc
  · rcases Memory.mem_write hc with rfl | hc
    · exact ha
    · exact hm.2 c hc

/-- A word below every listed one is not listed. -/
theorem Memory.lookup_none_of_lt {m : Memory} {b : Nat} (h : ∀ c ∈ m, b < c.1) : m.lookup b = none := by
  induction m with
  | nil => rfl
  | cons c m ih =>
    have hb := h c List.mem_cons_self
    rw [Memory.lookup, if_neg (by omega)]
    exact ih fun c hc => h c (List.mem_cons_of_mem _ hc)

/-- A canonical memory is what its words are: two that list the same words are equal. -/
theorem Memory.eq_of_lookup {m m' : Memory} (h : m.wf) (h' : m'.wf) (he : ∀ a, m.lookup a = m'.lookup a) : m = m' := by
  obtain ⟨h, -⟩ := h
  obtain ⟨h', -⟩ := h'
  induction m generalizing m' with
  | nil =>
    cases m' with
    | nil => rfl
    | cons c m' => have := he c.1; simp [Memory.lookup] at this
  | cons c m ih =>
    cases m' with
    | nil => have := he c.1; simp [Memory.lookup] at this
    | cons c' m' =>
      obtain ⟨d, w⟩ := c
      obtain ⟨d', w'⟩ := c'
      obtain ⟨hc, ht⟩ := List.pairwise_cons.mp h
      obtain ⟨hc', ht'⟩ := List.pairwise_cons.mp h'
      simp only at hc hc'
      have hd : d = d' := by
        rcases Nat.lt_trichotomy d d' with hlt | heq | hgt
        · have hn : Memory.lookup ((d', w') :: m') d = none := Memory.lookup_none_of_lt fun c hm => by
            rcases List.mem_cons.mp hm with rfl | hm
            · exact hlt
            · exact Nat.lt_trans hlt (hc' c hm)
          have := he d
          rw [hn] at this
          simp [Memory.lookup] at this
        · exact heq
        · have hn : Memory.lookup ((d, w) :: m) d' = none := Memory.lookup_none_of_lt fun c hm => by
            rcases List.mem_cons.mp hm with rfl | hm
            · exact hgt
            · exact Nat.lt_trans hgt (hc c hm)
          have := he d'
          rw [hn] at this
          simp [Memory.lookup] at this
      subst hd
      have hw := he d
      simp only [Memory.lookup, if_true, Option.some.injEq] at hw
      subst hw
      refine congrArg _ (ih (fun a => ?_) ht ht')
      by_cases ha : a = d
      · subst ha
        rw [Memory.lookup_none_of_lt hc, Memory.lookup_none_of_lt hc']
      · simpa [Memory.lookup, ha] using he a

@[simp] theorem Memory.writeMany_nil (m : Memory) : m.writeMany [] = m := rfl

@[simp] theorem Memory.writeMany_cons (m : Memory) (c : Nat × Word) (ws : List (Nat × Word)) :
    m.writeMany (c :: ws) = (m.write c.1 c.2).writeMany ws := rfl

/-- Writing several words that exist keeps the canonical form. -/
theorem Memory.writeMany_wf {m : Memory} (hm : m.wf) {ws : List (Nat × Word)} (h : ∀ c ∈ ws, c.1 < rbWords) :
    (m.writeMany ws).wf := by
  induction ws generalizing m with
  | nil => exact hm
  | cons c ws ih =>
    exact ih (Memory.write_wf hm (h c List.mem_cons_self) c.2) fun d hd => h d (List.mem_cons_of_mem _ hd)

/-- Writing several words leaves every word at another place as it was. -/
theorem Memory.lookup_writeMany_ne (m : Memory) {ws : List (Nat × Word)} {a : Nat} (h : ∀ c ∈ ws, c.1 ≠ a) :
    (m.writeMany ws).lookup a = m.lookup a := by
  induction ws generalizing m with
  | nil => rfl
  | cons c ws ih =>
    rw [Memory.writeMany_cons, ih _ fun d hd => h d (List.mem_cons_of_mem _ hd)]
    exact Memory.lookup_write_ne m c.2 (Ne.symm (h c List.mem_cons_self))

/-- Writing several words at different places leaves each of them there. -/
theorem Memory.lookup_writeMany_mem (m : Memory) {ws : List (Nat × Word)} (hd : (ws.map Prod.fst).Nodup)
    {c : Nat × Word} (hc : c ∈ ws) : (m.writeMany ws).lookup c.1 = some c.2 := by
  induction ws generalizing m with
  | nil => cases hc
  | cons d ws ih =>
    rw [List.map_cons, List.nodup_cons] at hd
    rw [Memory.writeMany_cons]
    rcases List.mem_cons.mp hc with rfl | hc
    · rw [Memory.lookup_writeMany_ne]
      · exact Memory.lookup_write_same m c.1 c.2
      · intro e he hec
        exact hd.1 (hec ▸ List.mem_map_of_mem he)
    · exact ih _ hd.2 hc

/-- A word of a table by word index. -/
theorem Memory.lookup_map_range (f : Nat → Word) (n a : Nat) :
    Memory.lookup ((List.range n).map fun b => (b, f b)) a = if a < n then some (f a) else none := by
  suffices h : ∀ k, Memory.lookup ((List.range' k n).map fun b => (b, f b)) a =
      if k ≤ a ∧ a < k + n then some (f a) else none by
    rw [List.range_eq_range', h 0]; simp
  induction n with
  | zero =>
    intro k
    rw [if_neg (by omega)]
    rfl
  | succ n ih =>
    intro k
    rw [List.range'_succ, List.map_cons]
    simp only [Memory.lookup, ih]
    by_cases hak : a = k
    · subst hak; simp
    · rw [if_neg hak]
      by_cases h : k + 1 ≤ a ∧ a < k + 1 + n
      · rw [if_pos h, if_pos (by omega)]
      · rw [if_neg h, if_neg (by omega)]

theorem rbWords_eq : rbWords = 91 := rfl

theorem capacity_eq : capacity = 10 := rfl

@[simp] theorem slotBase_eq (slot : Nat) : slotBase slot = 1 + 9 * slot := rfl

/-- Every word of the zeroed buffer is 0 (R163). -/
theorem lookup_zeroedBuffer {a : Nat} (h : a < 91) : zeroedBuffer.lookup a = some 0 := by
  have := Memory.lookup_map_range (fun _ => 0) rbWords a
  simpa [zeroedBuffer, rbWords_eq, h] using this

/-- The zeroed buffer is in canonical form. -/
theorem zeroedBuffer_wf : Memory.wf zeroedBuffer := by decide +kernel

/-- Premise `BufferZero` says that every word is listed and 0. -/
theorem Memory.isZero_iff (m : Memory) : m.isZero = true ↔ ∀ a < 91, m.lookup a = some 0 := by
  simp [Memory.isZero, rbWords_eq]

/-- What writing words of ResultBuffer can do: it answers the state with the words written, if all of them exist. -/
theorem writeWords_next {ws : List (Nat × Word)} (h : ∀ c ∈ ws, c.1 < rbWords) (s : State) :
    writeWords ws s = .next { s with rb := s.rb.writeMany ws } := by
  have : ws.find? (fun c => rbWords ≤ c.1) = none := by
    rw [List.find?_eq_none]
    intro c hc
    have := h c hc
    simpa using this
  simp only [writeWords, this]

/-- All that writing words of ResultBuffer can answer. -/
theorem writeWords_cases (ws : List (Nat × Word)) (s : State) :
    ((∀ c ∈ ws, c.1 < rbWords) ∧ writeWords ws s = .next { s with rb := s.rb.writeMany ws }) ∨
    ∃ a, rbWords ≤ a ∧ writeWords ws s = .fault (.noSuchWord a) := by
  unfold writeWords
  split
  · rename_i c hc
    exact .inr ⟨c.1, by simpa using List.find?_some hc, rfl⟩
  · rename_i h
    rw [List.find?_eq_none] at h
    exact .inl ⟨fun c hc => by simpa using h c hc, rfl⟩

/-- The nine words of a slot that exists stand at indexes 1..90 (R119, R120). -/
theorem slotWrites_range {slot : Nat} (h : slot < 10) (index : Word) (d : Digest) {c : Nat × Word}
    (hc : c ∈ slotWrites slot index d) : 1 + 9 * slot ≤ c.1 ∧ c.1 < 10 + 9 * slot ∧ c.1 < rbWords := by
  simp only [slotWrites, slotBase_eq, List.mem_cons, List.mem_mapIdx] at hc
  rw [rbWords_eq]
  rcases hc with rfl | ⟨j, hj, rfl⟩
  · simp only; omega
  · simp only [Vector.length_toList] at hj
    simp only; omega

/-- The nine word indexes of a slot are different. -/
theorem slotWrites_nodup (slot : Nat) (index : Word) (d : Digest) :
    ((slotWrites slot index d).map Prod.fst).Nodup := by
  rw [List.nodup_iff_injective_get]
  intro i j hij
  have hlen : ((slotWrites slot index d).map Prod.fst).length = 9 := by simp [slotWrites]
  have key : ∀ k : Fin ((slotWrites slot index d).map Prod.fst).length,
      ((slotWrites slot index d).map Prod.fst).get k = 1 + 9 * slot + k.val := by
    intro k
    rcases k with ⟨k, hk⟩
    cases k with
    | zero => simp [slotWrites]
    | succ k => simp [slotWrites]; omega
  rw [key, key] at hij
  exact Fin.ext (by omega)

end Sys2Proof.Machine
end

