-- ==== Sys2Proof/Laws/State.lean ====
section
/-! SUPPORT. One lemma per field per update of the state, true by `rfl`, so that no proof unfolds a record update. -/

namespace Sys2Proof.Machine

/-! ### `State.putCurrent` changes `evaluators` alone -/

@[simp] theorem State.putCurrent_diff (s : State) (e : Evaluator) : (s.putCurrent e).diff = s.diff := rfl
@[simp] theorem State.putCurrent_targetZeros (s : State) (e : Evaluator) : (s.putCurrent e).targetZeros = s.targetZeros := rfl
@[simp] theorem State.putCurrent_startK (s : State) (e : Evaluator) : (s.putCurrent e).startK = s.startK := rfl
@[simp] theorem State.putCurrent_rb (s : State) (e : Evaluator) : (s.putCurrent e).rb = s.rb := rfl
@[simp] theorem State.putCurrent_evaluators (s : State) (e : Evaluator) : (s.putCurrent e).evaluators = s.evaluators.set s.turn e := rfl
@[simp] theorem State.putCurrent_turn (s : State) (e : Evaluator) : (s.putCurrent e).turn = s.turn := rfl
@[simp] theorem State.putCurrent_schedule (s : State) (e : Evaluator) : (s.putCurrent e).schedule = s.schedule := rfl
@[simp] theorem State.putCurrent_turns (s : State) (e : Evaluator) : (s.putCurrent e).turns = s.turns := rfl
@[simp] theorem State.putCurrent_host (s : State) (e : Evaluator) : (s.putCurrent e).host = s.host := rfl

/-! ### `State.select` changes `turn`, `turns` and `schedule` -/

@[simp] theorem State.select_diff (s : State) (e : Nat) : (s.select e).diff = s.diff := rfl
@[simp] theorem State.select_targetZeros (s : State) (e : Nat) : (s.select e).targetZeros = s.targetZeros := rfl
@[simp] theorem State.select_startK (s : State) (e : Nat) : (s.select e).startK = s.startK := rfl
@[simp] theorem State.select_rb (s : State) (e : Nat) : (s.select e).rb = s.rb := rfl
@[simp] theorem State.select_evaluators (s : State) (e : Nat) : (s.select e).evaluators = s.evaluators := rfl
@[simp] theorem State.select_turn (s : State) (e : Nat) : (s.select e).turn = e := rfl
@[simp] theorem State.select_schedule (s : State) (e : Nat) : (s.select e).schedule = (s.schedule.dropWhile fun t => !s.live t).tail := rfl
@[simp] theorem State.select_turns (s : State) (e : Nat) : (s.select e).turns = s.turns + 1 := rfl
@[simp] theorem State.select_host (s : State) (e : Nat) : (s.select e).host = s.host := rfl

/-! ### `Evaluator.setDsel` changes `d1` or `d2` -/

@[simp] theorem Evaluator.setDsel_first_index (e : Evaluator) (d : Digest) : (e.setDsel .first d).index = e.index := rfl
@[simp] theorem Evaluator.setDsel_first_k (e : Evaluator) (d : Digest) : (e.setDsel .first d).k = e.k := rfl
@[simp] theorem Evaluator.setDsel_first_x (e : Evaluator) (d : Digest) : (e.setDsel .first d).x = e.x := rfl
@[simp] theorem Evaluator.setDsel_first_l (e : Evaluator) (d : Digest) : (e.setDsel .first d).l = e.l := rfl
@[simp] theorem Evaluator.setDsel_first_b1 (e : Evaluator) (d : Digest) : (e.setDsel .first d).b1 = e.b1 := rfl
@[simp] theorem Evaluator.setDsel_first_d1 (e : Evaluator) (d : Digest) : (e.setDsel .first d).d1 = .holds d := rfl
@[simp] theorem Evaluator.setDsel_first_b2 (e : Evaluator) (d : Digest) : (e.setDsel .first d).b2 = e.b2 := rfl
@[simp] theorem Evaluator.setDsel_first_d2 (e : Evaluator) (d : Digest) : (e.setDsel .first d).d2 = e.d2 := rfl
@[simp] theorem Evaluator.setDsel_first_z (e : Evaluator) (d : Digest) : (e.setDsel .first d).z = e.z := rfl
@[simp] theorem Evaluator.setDsel_first_q (e : Evaluator) (d : Digest) : (e.setDsel .first d).q = e.q := rfl
@[simp] theorem Evaluator.setDsel_first_s (e : Evaluator) (d : Digest) : (e.setDsel .first d).s = e.s := rfl
@[simp] theorem Evaluator.setDsel_first_upc (e : Evaluator) (d : Digest) : (e.setDsel .first d).upc = e.upc := rfl
@[simp] theorem Evaluator.setDsel_first_fin (e : Evaluator) (d : Digest) : (e.setDsel .first d).fin = e.fin := rfl
@[simp] theorem Evaluator.setDsel_second_index (e : Evaluator) (d : Digest) : (e.setDsel .second d).index = e.index := rfl
@[simp] theorem Evaluator.setDsel_second_k (e : Evaluator) (d : Digest) : (e.setDsel .second d).k = e.k := rfl
@[simp] theorem Evaluator.setDsel_second_x (e : Evaluator) (d : Digest) : (e.setDsel .second d).x = e.x := rfl
@[simp] theorem Evaluator.setDsel_second_l (e : Evaluator) (d : Digest) : (e.setDsel .second d).l = e.l := rfl
@[simp] theorem Evaluator.setDsel_second_b1 (e : Evaluator) (d : Digest) : (e.setDsel .second d).b1 = e.b1 := rfl
@[simp] theorem Evaluator.setDsel_second_d1 (e : Evaluator) (d : Digest) : (e.setDsel .second d).d1 = e.d1 := rfl
@[simp] theorem Evaluator.setDsel_second_b2 (e : Evaluator) (d : Digest) : (e.setDsel .second d).b2 = e.b2 := rfl
@[simp] theorem Evaluator.setDsel_second_d2 (e : Evaluator) (d : Digest) : (e.setDsel .second d).d2 = .holds d := rfl
@[simp] theorem Evaluator.setDsel_second_z (e : Evaluator) (d : Digest) : (e.setDsel .second d).z = e.z := rfl
@[simp] theorem Evaluator.setDsel_second_q (e : Evaluator) (d : Digest) : (e.setDsel .second d).q = e.q := rfl
@[simp] theorem Evaluator.setDsel_second_s (e : Evaluator) (d : Digest) : (e.setDsel .second d).s = e.s := rfl
@[simp] theorem Evaluator.setDsel_second_upc (e : Evaluator) (d : Digest) : (e.setDsel .second d).upc = e.upc := rfl
@[simp] theorem Evaluator.setDsel_second_fin (e : Evaluator) (d : Digest) : (e.setDsel .second d).fin = e.fin := rfl

/-! ### `Evaluator.fresh`: a launched evaluator (R34) -/

@[simp] theorem Evaluator.fresh_index (i : Word) : (Evaluator.fresh i).index = i := rfl
@[simp] theorem Evaluator.fresh_k (i : Word) : (Evaluator.fresh i).k = .noval := rfl
@[simp] theorem Evaluator.fresh_x (i : Word) : (Evaluator.fresh i).x = .noval := rfl
@[simp] theorem Evaluator.fresh_l (i : Word) : (Evaluator.fresh i).l = .noval := rfl
@[simp] theorem Evaluator.fresh_b1 (i : Word) : (Evaluator.fresh i).b1 = .noval := rfl
@[simp] theorem Evaluator.fresh_d1 (i : Word) : (Evaluator.fresh i).d1 = .noval := rfl
@[simp] theorem Evaluator.fresh_b2 (i : Word) : (Evaluator.fresh i).b2 = .noval := rfl
@[simp] theorem Evaluator.fresh_d2 (i : Word) : (Evaluator.fresh i).d2 = .noval := rfl
@[simp] theorem Evaluator.fresh_z (i : Word) : (Evaluator.fresh i).z = .noval := rfl
@[simp] theorem Evaluator.fresh_q (i : Word) : (Evaluator.fresh i).q = .noval := rfl
@[simp] theorem Evaluator.fresh_s (i : Word) : (Evaluator.fresh i).s = .noval := rfl
@[simp] theorem Evaluator.fresh_upc (i : Word) : (Evaluator.fresh i).upc = 0 := rfl
@[simp] theorem Evaluator.fresh_fin (i : Word) : (Evaluator.fresh i).fin = false := rfl

/-! ### `State.advance` changes `evaluators` alone -/

@[simp] theorem State.advance_diff (s : State) : s.advance.diff = s.diff := by
  unfold State.advance; split <;> rfl
@[simp] theorem State.advance_targetZeros (s : State) : s.advance.targetZeros = s.targetZeros := by
  unfold State.advance; split <;> rfl
@[simp] theorem State.advance_startK (s : State) : s.advance.startK = s.startK := by
  unfold State.advance; split <;> rfl
@[simp] theorem State.advance_rb (s : State) : s.advance.rb = s.rb := by
  unfold State.advance; split <;> rfl
@[simp] theorem State.advance_turn (s : State) : s.advance.turn = s.turn := by
  unfold State.advance; split <;> rfl
@[simp] theorem State.advance_schedule (s : State) : s.advance.schedule = s.schedule := by
  unfold State.advance; split <;> rfl
@[simp] theorem State.advance_turns (s : State) : s.advance.turns = s.turns := by
  unfold State.advance; split <;> rfl
@[simp] theorem State.advance_host (s : State) : s.advance.host = s.host := by
  unfold State.advance; split <;> rfl

/-! ### The evaluator whose turn it is -/

/-- Putting back an evaluator makes it the current one. -/
theorem State.current_putCurrent {s : State} {e : Evaluator} (h : s.current = some e) (e' : Evaluator) :
    (s.putCurrent e').current = some e' := by
  have hlt : s.turn < s.evaluators.length := (List.getElem?_eq_some_iff.mp h).1
  simp [State.current, hlt]

/-- Of two evaluators put back one after the other, the second stays. -/
@[simp] theorem State.putCurrent_putCurrent (s : State) (e e' : Evaluator) :
    (s.putCurrent e).putCurrent e' = s.putCurrent e' := by
  simp [State.putCurrent]

/-- Putting back an evaluator leaves every other position as it was. -/
theorem State.getElem?_putCurrent_ne {s : State} {j : Nat} (h : j ≠ s.turn) (e : Evaluator) :
    (s.putCurrent e).evaluators[j]? = s.evaluators[j]? := by
  simp [List.getElem?_set_ne (Ne.symm h)]

/-- What `State.advance` puts back. -/
theorem State.advance_eq {s : State} {e : Evaluator} (h : s.current = some e) :
    s.advance = s.putCurrent { e with upc := nextUpc e.upc e.q } := by
  simp [State.advance, h]

@[simp] theorem State.current_select (s : State) (e : Nat) : (s.select e).current = s.evaluators[e]? := rfl

end Sys2Proof.Machine
end

