-- ==== Sys2Proof/Laws/Exec.lean ====
section
/-! SUPPORT. What each shared operation and each of the twelve operations can do, said once: the equation of an operation that
has its operands, and one inversion lemma for all twelve. -/

namespace Sys2Proof.Machine

/-! ### The shared operations -/

/-- An operation acts on the evaluator whose turn it is. -/
theorem onEvaluator_some {s : State} {e : Evaluator} (h : s.current = some e)
    (f : Evaluator → Host.Outcome State Fault Refusal) : onEvaluator s f = f e := by
  simp [onEvaluator, h]

/-- Without an evaluator whose turn it is there is no operation (R35). -/
theorem onEvaluator_none {s : State} (h : s.current = none)
    (f : Evaluator → Host.Outcome State Fault Refusal) : onEvaluator s f = .fault .noEvaluator := by
  simp [onEvaluator, h]

/-- If an operation answers a next state, there is an evaluator whose turn it is. -/
theorem onEvaluator_next {s t : State} {f : Evaluator → Host.Outcome State Fault Refusal}
    (h : onEvaluator s f = .next t) : ∃ e, s.current = some e ∧ f e = .next t := by
  cases hc : s.current with
  | none => rw [onEvaluator_none hc] at h; cases h
  | some e => exact ⟨e, rfl, by rwa [onEvaluator_some hc] at h⟩

@[simp] theorem readReg_holds {α : Type} (v : α) (r : PrivateReg) (f : α → Host.Outcome State Fault Refusal) :
    readReg (.holds v) r f = f v := rfl

@[simp] theorem readReg_noval {α : Type} (r : PrivateReg) (f : α → Host.Outcome State Fault Refusal) :
    readReg .noval r f = .fault (.readNoval r) := rfl

/-- If a read of a register answers a next state, the register held a value. -/
theorem readReg_next {α : Type} {x : Reg α} {r : PrivateReg} {f : α → Host.Outcome State Fault Refusal} {t : State}
    (h : readReg x r f = .next t) : ∃ v, x = .holds v ∧ f v = .next t := by
  cases x with
  | noval => cases h
  | holds v => exact ⟨v, rfl, h⟩

/-- Reading one of the two digest registers and writing the other names of `Dsel` (R63). -/
theorem Evaluator.dsel_setDsel (e : Evaluator) (p : Pass) (d : Digest) : (e.setDsel p d).dsel p = .holds d := by
  cases p <;> rfl

/-! ### The twelve operations, where their operands are there -/

variable {s : State} {e : Evaluator}

theorem exec_kgen (h : s.current = some e) :
    exec .kgen s = .next (s.putCurrent { e with k := .holds (candidate s.startK e.index) }) := by
  simp only [exec, execKgen, onEvaluator_some h]

theorem exec_cube (h : s.current = some e) {k : Word64} (hk : e.k = .holds k) :
    exec .cube s = .next (s.putCurrent { e with x := .holds (cubeNonce k s.diff) }) := by
  simp only [exec, execCube, onEvaluator_some h, hk, readReg_holds]

theorem exec_siglen (h : s.current = some e) {x : Nonce} (hx : e.x = .holds x) :
    exec .siglen s = .next (s.putCurrent { e with l := .holds (significantLength x) }) := by
  simp only [exec, execSiglen, onEvaluator_some h, hx, readReg_holds]

theorem exec_pack1 (h : s.current = some e) {x : Nonce} (hx : e.x = .holds x) {l : SigLen} (hl : e.l = .holds l) :
    exec .pack1 s = .next (s.putCurrent { e with b1 := .holds (blockOne x l) }) := by
  simp only [exec, execPack1, onEvaluator_some h, hx, hl, readReg_holds]

theorem exec_pack2 (h : s.current = some e) {d : Digest} (hd : e.d1 = .holds d) :
    exec .pack2 s = .next (s.putCurrent { e with b2 := .holds (blockTwo d) }) := by
  simp only [exec, execPack2, onEvaluator_some h, hd, readReg_holds]

theorem exec_shaiv (h : s.current = some e) (p : Pass) :
    exec (.shaiv p) s = .next (s.putCurrent (e.setDsel p iv)) := by
  simp only [exec, execShaiv, onEvaluator_some h]

theorem exec_shacmp (h : s.current = some e) {p : Pass} {d : Digest} (hd : e.dsel p = .holds d) {b : Block}
    (hb : e.bsel p = .holds b) :
    exec (.shacmp p) s = .next (s.putCurrent (e.setDsel p (compress d b))) := by
  simp only [exec, execShacmp, onEvaluator_some h, hd, hb, readReg_holds]

theorem exec_lzn (h : s.current = some e) {d : Digest} (hd : e.d2 = .holds d) :
    exec .lzn s = .next (s.putCurrent { e with z := .holds (digestZeros d) }) := by
  simp only [exec, execLzn, onEvaluator_some h, hd, readReg_holds]

theorem exec_qual (h : s.current = some e) {z : Fin 65} (hz : e.z = .holds z) :
    exec .qual s = .next (s.putCurrent { e with q := .holds (qualifies z s.targetZeros) }) := by
  simp only [exec, execQual, onEvaluator_some h, hz, readReg_holds]

theorem exec_claim (h : s.current = some e) :
    exec .claim s = .next (State.putCurrent { s with rb := s.rb.write 0 (counterNext (s.rb.read 0)) }
      { e with s := .holds (s.rb.read 0) }) := by
  simp only [exec, execClaim, fetchAddCounter, onEvaluator_some h]

theorem exec_record_slot (h : s.current = some e) {v : Word} (hv : e.s = .holds v) (hlt : v.toNat < 10) {d : Digest}
    (hd : e.d2 = .holds d) :
    exec .record s = .next { s with rb := s.rb.writeMany (slotWrites v.toNat e.index d) } := by
  simp only [exec, execRecord, onEvaluator_some h, hv, hd, readReg_holds, capacity_eq, if_pos hlt]
  exact writeWords_next (fun c hc => (slotWrites_range hlt e.index d hc).2.2) s

theorem exec_record_full (h : s.current = some e) {v : Word} (hv : e.s = .holds v) (hge : ¬ v.toNat < 10) :
    exec .record s = .next s := by
  simp only [exec, execRecord, onEvaluator_some h, hv, readReg_holds, capacity_eq]
  exact if_neg hge

theorem exec_done (h : s.current = some e) : exec .done s = .next (s.putCurrent { e with fin := true }) := by
  simp only [exec, execDone, onEvaluator_some h]

/-! ### All that an operation can do -/

/-- What operation `i` leaves of state `s` and evaluator `e`, the evaluator whose turn it is: twelve cases, each with the
operands it read. -/
inductive Effect (s : State) (e : Evaluator) : Instr → State → Prop where
  | kgen : Effect s e .kgen (s.putCurrent { e with k := .holds (candidate s.startK e.index) })
  | cube {k : Word64} (hk : e.k = .holds k) : Effect s e .cube (s.putCurrent { e with x := .holds (cubeNonce k s.diff) })
  | siglen {x : Nonce} (hx : e.x = .holds x) :
      Effect s e .siglen (s.putCurrent { e with l := .holds (significantLength x) })
  | pack1 {x : Nonce} {l : SigLen} (hx : e.x = .holds x) (hl : e.l = .holds l) :
      Effect s e .pack1 (s.putCurrent { e with b1 := .holds (blockOne x l) })
  | pack2 {d : Digest} (hd : e.d1 = .holds d) : Effect s e .pack2 (s.putCurrent { e with b2 := .holds (blockTwo d) })
  | shaiv (p : Pass) : Effect s e (.shaiv p) (s.putCurrent (e.setDsel p iv))
  | shacmp {p : Pass} {d : Digest} {b : Block} (hd : e.dsel p = .holds d) (hb : e.bsel p = .holds b) :
      Effect s e (.shacmp p) (s.putCurrent (e.setDsel p (compress d b)))
  | lzn {d : Digest} (hd : e.d2 = .holds d) : Effect s e .lzn (s.putCurrent { e with z := .holds (digestZeros d) })
  | qual {z : Fin 65} (hz : e.z = .holds z) :
      Effect s e .qual (s.putCurrent { e with q := .holds (qualifies z s.targetZeros) })
  | claim : Effect s e .claim (State.putCurrent { s with rb := s.rb.write 0 (counterNext (s.rb.read 0)) }
      { e with s := .holds (s.rb.read 0) })
  | recordSlot {v : Word} {d : Digest} (hv : e.s = .holds v) (hlt : v.toNat < 10) (hd : e.d2 = .holds d) :
      Effect s e .record { s with rb := s.rb.writeMany (slotWrites v.toNat e.index d) }
  | recordFull {v : Word} (hv : e.s = .holds v) (hge : ¬ v.toNat < 10) : Effect s e .record s
  | done : Effect s e .done (s.putCurrent { e with fin := true })

/-- The inversion lemma: if an operation answers a next state, it is one of the twelve effects on the evaluator whose turn
it is. -/
theorem exec_effect {i : Instr} {t : State} (h : exec i s = .next t) :
    ∃ e, s.current = some e ∧ Effect s e i t := by
  cases hc : s.current with
  | none => cases i <;> exact absurd h (by simp [exec, execKgen, execCube, execSiglen, execPack1, execPack2, execShaiv,
      execShacmp, execLzn, execQual, execClaim, execRecord, execDone, onEvaluator_none hc])
  | some e =>
    refine ⟨e, rfl, ?_⟩
    cases i with
    | kgen => rw [exec_kgen hc] at h; cases h; exact .kgen
    | cube =>
      simp only [exec, execCube, onEvaluator_some hc] at h
      obtain ⟨k, hk, h⟩ := readReg_next h; cases h; exact .cube hk
    | siglen =>
      simp only [exec, execSiglen, onEvaluator_some hc] at h
      obtain ⟨x, hx, h⟩ := readReg_next h; cases h; exact .siglen hx
    | pack1 =>
      simp only [exec, execPack1, onEvaluator_some hc] at h
      obtain ⟨x, hx, h⟩ := readReg_next h
      obtain ⟨l, hl, h⟩ := readReg_next h; cases h; exact .pack1 hx hl
    | pack2 =>
      simp only [exec, execPack2, onEvaluator_some hc] at h
      obtain ⟨d, hd, h⟩ := readReg_next h; cases h; exact .pack2 hd
    | shaiv p => rw [exec_shaiv hc] at h; cases h; exact .shaiv p
    | shacmp p =>
      simp only [exec, execShacmp, onEvaluator_some hc] at h
      obtain ⟨d, hd, h⟩ := readReg_next h
      obtain ⟨b, hb, h⟩ := readReg_next h; cases h; exact .shacmp hd hb
    | lzn =>
      simp only [exec, execLzn, onEvaluator_some hc] at h
      obtain ⟨d, hd, h⟩ := readReg_next h; cases h; exact .lzn hd
    | qual =>
      simp only [exec, execQual, onEvaluator_some hc] at h
      obtain ⟨z, hz, h⟩ := readReg_next h; cases h; exact .qual hz
    | claim => rw [exec_claim hc] at h; cases h; exact .claim
    | record =>
      have h' := h
      simp only [exec, execRecord, onEvaluator_some hc] at h'
      obtain ⟨v, hv, h'⟩ := readReg_next h'
      by_cases hlt : v.toNat < 10
      · rw [capacity_eq, if_pos hlt] at h'
        obtain ⟨d, hd, -⟩ := readReg_next h'
        rw [exec_record_slot hc hv hlt hd] at h; cases h; exact .recordSlot hv hlt hd
      · rw [exec_record_full hc hv hlt] at h; cases h; exact .recordFull hv hlt
    | done => rw [exec_done hc] at h; cases h; exact .done

end Sys2Proof.Machine
end

