-- ==== Sys2Proof/Laws/Step.lean ====
section
/-! SUPPORT. What a step can do: the turn of an evaluator that has one, or a move of the host. -/

namespace Sys2Proof.Machine

variable {s t : State}

/-- An evaluator has a step iff it exists and its `fin` is 0 (R131). -/
theorem State.live_iff {e : Nat} : s.live e = true ↔ ∃ v, s.evaluators[e]? = some v ∧ v.fin = false := by
  unfold State.live
  split <;> simp_all

/-- The evaluators that have a step are those of the list. -/
theorem State.mem_liveList {e : Nat} : e ∈ s.liveList ↔ s.live e = true := by
  simp only [State.liveList, List.mem_filter, List.mem_range, and_iff_right_iff_imp]
  intro h
  obtain ⟨v, hv, -⟩ := State.live_iff.mp h
  exact (List.getElem?_eq_some_iff.mp hv).1

/-- The evaluator chosen has a step (R131). -/
theorem State.chosen_live {e : Nat} (h : s.chosen = some e) : s.live e = true := by
  unfold State.chosen at h
  split at h
  · rename_i e' hf
    cases h
    exact List.find?_some hf
  · refine State.mem_liveList.mp ?_
    split at h
    · cases h
    · rename_i e' he
      cases h; rw [he]; exact List.mem_singleton_self e
    · rename_i e' es _ he
      cases h; rw [he]
      have hlt : Config.freeTurn s.turns % (es.length + 1) < (e' :: es).length := by
        simpa using Nat.mod_lt _ (Nat.succ_pos _)
      rw [← List.getElem_eq_getD (h := hlt)]
      exact List.getElem_mem hlt

/-- Where none is chosen none has a step. -/
theorem State.chosen_none (h : s.chosen = none) (e : Nat) : s.live e = false := by
  unfold State.chosen at h
  split at h
  · cases h
  · split at h
    · rename_i hl
      cases hlive : s.live e with
      | false => rfl
      | true => exact absurd (State.mem_liveList.mpr hlive) (by rw [hl]; exact List.not_mem_nil)
    · cases h
    · cases h

/-- Issuing a byte that decodes carries its operation out; any other is refused (R65). -/
theorem issue_ok {c : Byte} {i : Instr} (h : decode c = .ok i) (s : State) : issue c s = exec i s := by
  simp [issue, h]

@[simp] theorem issueAll_nil (s : State) : issueAll [] s = .next s := rfl

/-- A unit program whose first operation answers a next state goes on there (R143). -/
theorem issueAll_cons {c : Byte} {i : Instr} {cs : List Byte} (hi : decode c = .ok i) (h : exec i s = .next t) :
    issueAll (c :: cs) s = issueAll cs t := by
  simp [issueAll, issue_ok hi, h]

/-- The hardwired sequence holds the operation of each place, and no reserved byte (R69, R130). -/
theorem decode_commandAt (i : Instr) : decode (commandAt (positionOf i)) = .ok i := by
  rcases i with _ | _ | _ | _ | _ | p | p | _ | _ | _ | _ | _ <;> first | decide | (cases p <;> decide)

/-- Every place of the sequence is that of an operation (R130). -/
theorem exists_positionOf (u : Fin 14) : ∃ i, positionOf i = u := by
  have h : ∀ u : Fin 14, positionOf (([.kgen, .cube, .siglen, .pack1, .shaiv .first, .shacmp .first, .pack2,
      .shaiv .second, .shacmp .second, .lzn, .qual, .claim, .record, .done] : List Instr).getD u.val .done) = u := by
    decide
  exact ⟨_, h u⟩

/-- The inversion lemma of an evaluator's turn. -/
theorem takeTurn_next {e : Nat} (h : takeTurn e s = .next t) :
    ∃ v i t', s.evaluators[e]? = some v ∧ positionOf i = v.upc ∧ exec i (s.select e) = .next t' ∧ t = t'.advance := by
  obtain ⟨v, hv, h⟩ := onEvaluator_next h
  obtain ⟨i, hi⟩ := exists_positionOf v.upc
  rw [← hi, issue_ok (decode_commandAt i)] at h
  split at h
  · rename_i t' ht
    cases h
    exact ⟨v, i, t', hv, hi, ht, rfl⟩
  · cases h
  · cases h

/-- The inversion lemma of a step: an evaluator that had one took its turn, or none had one and the host made its next
move. -/
theorem step_cases (h : step s = .next t) :
    (∃ e, s.chosen = some e ∧ takeTurn e s = .next t) ∨
    (s.chosen = none ∧ ∃ a rest, s.host = a :: rest ∧ hostAct a { s with host := rest } = .next t) := by
  unfold step at h
  split at h
  · rename_i e he
    exact .inl ⟨e, he, h⟩
  · rename_i hn
    unfold hostTurn at h
    split at h
    · cases h
    · rename_i a rest hh
      exact .inr ⟨hn, a, rest, hh, h⟩

/-- Where the batch is complete a step is the next move of the host. -/
theorem step_of_complete {a : HostAction} {rest : List HostAction} (h : s.complete = true) :
    step { s with host := a :: rest } = hostAct a { s with host := rest } := by
  have hc : State.chosen { s with host := a :: rest } = none := by
    cases hx : State.chosen { s with host := a :: rest } with
    | none => rfl
    | some e =>
      obtain ⟨v, hv, hf⟩ := State.live_iff.mp (State.chosen_live hx)
      have := List.all_eq_true.mp h v (List.mem_of_getElem? hv)
      simp [hf] at this
  simp [step, hc, hostTurn]

/-- The inversion lemma of a launch: its premises hold, and it creates the evaluators (R34, R170). -/
theorem launch_next {n : Nat} (h : launch n s = .next t) :
    n ≤ maxBatch ∧ noKOverflow s.startK n = true ∧ s.rb.isZero = true ∧
      t = { s with evaluators := freshEvaluators n, turn := 0 } := by
  unfold launch at h
  split at h
  · cases h
  · split at h
    · cases h
    · split at h
      · cases h
      · rename_i h1 h2 h3
        cases h
        exact ⟨by simpa using h1, by simpa using h2, by simpa using h3, rfl⟩

/-- The evaluators a launch creates, by position. -/
theorem freshEvaluators_getElem? (n j : Nat) :
    (freshEvaluators n)[j]? = if j < n then some (Evaluator.fresh (BitVec.ofNat 32 j)) else none := by
  by_cases h : j < n <;> simp [freshEvaluators, h]

@[simp] theorem freshEvaluators_length (n : Nat) : (freshEvaluators n).length = n := by simp [freshEvaluators]

/-- Next `upc` as a number, by the cases of R130. -/
theorem nextUpc_val (u : Fin 14) (q : Reg Bool) :
    (nextUpc u q).val =
      if u.val = 10 then (if q = .holds true then 11 else 13) else if u.val = 13 then 13 else u.val + 1 := by
  unfold nextUpc
  split
  · split <;> rfl
  · split
    · rw [if_neg (by omega)]
    · rw [if_pos (by omega)]; rfl

/-- The inversion lemma of a host move: it is made between batches and leaves one of six states. -/
theorem hostAct_next {a : HostAction} (h : hostAct a s = .next t) :
    s.complete = true ∧
    ((a = .zeroBuffer ∧ t = { s with evaluators := [], turn := 0, rb := zeroedBuffer }) ∨
     (∃ w v, a = .writeWord w v ∧ w < 91 ∧ t = { s with evaluators := [], turn := 0, rb := s.rb.write w v }) ∨
     (∃ v, a = .writeDiff v ∧ t = { s with evaluators := [], turn := 0, diff := v }) ∨
     (∃ v, a = .writeTargetZeros v ∧ t = { s with evaluators := [], turn := 0, targetZeros := v }) ∨
     (∃ v, a = .writeStartK v ∧ t = { s with evaluators := [], turn := 0, startK := v }) ∨
     (∃ n, a = .launch n ∧ n ≤ maxBatch ∧ noKOverflow s.startK n = true ∧ s.rb.isZero = true ∧
       t = { s with evaluators := freshEvaluators n, turn := 0 })) := by
  unfold hostAct at h
  split at h
  · cases h
  · rename_i hc
    refine ⟨by simpa using hc, ?_⟩
    cases a with
    | zeroBuffer => cases h; exact .inl ⟨rfl, rfl⟩
    | writeWord w v =>
      rcases writeWords_cases [(w, v)] { s with evaluators := [], turn := 0 } with ⟨hw, he⟩ | ⟨b, -, he⟩
      · simp only [he] at h
        cases h
        exact .inr (.inl ⟨w, v, rfl, by simpa [rbWords_eq] using hw, rfl⟩)
      · simp only [he] at h
        cases h
    | writeDiff v => cases h; exact .inr (.inr (.inl ⟨v, rfl, rfl⟩))
    | writeTargetZeros v => cases h; exact .inr (.inr (.inr (.inl ⟨v, rfl, rfl⟩)))
    | writeStartK v => cases h; exact .inr (.inr (.inr (.inr (.inl ⟨v, rfl, rfl⟩))))
    | launch n =>
      obtain ⟨h1, h2, h3, rfl⟩ := launch_next h
      exact .inr (.inr (.inr (.inr (.inr ⟨n, rfl, h1, h2, h3, rfl⟩))))

end Sys2Proof.Machine
end

