-- ==== Sys2Proof/Laws/Batch.lean ====
section
/-! SUPPORT. The small laws of the invariant of a batch: what its parts depend on, and what a launched evaluator is. -/

namespace Sys2Proof.Machine

variable {s t : State}

/-- The results of a candidate depend on the launch parameters alone (R9). -/
theorem State.results_congr (hd : t.diff = s.diff) (ht : t.targetZeros = s.targetZeros) (hk : t.startK = s.startK) :
    t.results = s.results := by
  funext i
  simp only [State.results, hd, ht, hk]

/-- Whether an evaluator follows the sequence depends on the results alone. -/
theorem Evaluator.Follows.congr (h : t.results = s.results) {e : Evaluator} (hf : e.Follows s) : e.Follows t :=
  ⟨by rw [h]; exact hf.k, by rw [h]; exact hf.x, by rw [h]; exact hf.l, by rw [h]; exact hf.b1, by rw [h]; exact hf.d1,
    by rw [h]; exact hf.b2, by rw [h]; exact hf.d2, by rw [h]; exact hf.z, by rw [h]; exact hf.q,
    by rw [h]; exact hf.qualified, by rw [h]; exact hf.claimed, hf.finished⟩

/-- A launched evaluator is at the start of the sequence (R34). -/
theorem Evaluator.fresh_follows (s : State) (index : Word) : (Evaluator.fresh index).Follows s := by
  constructor <;> simp [Evaluator.fresh, regFrom]

/-- The words of a slot stand at exactly the nine indexes from its base on (R119). -/
theorem mem_slotWrites_iff {slot a : Nat} {index : Word} {d : Digest} :
    (∃ c ∈ slotWrites slot index d, c.1 = a) ↔ 1 + 9 * slot ≤ a ∧ a < 10 + 9 * slot := by
  constructor
  · rintro ⟨c, hc, rfl⟩
    simp only [slotWrites, slotBase_eq, List.mem_cons, List.mem_mapIdx] at hc
    rcases hc with rfl | ⟨j, hj, rfl⟩
    · simp only; omega
    · simp only [Vector.length_toList] at hj
      simp only; omega
  · rintro ⟨h1, h2⟩
    by_cases h : a = 1 + 9 * slot
    · exact ⟨_, List.mem_cons_self, by simp [h]⟩
    · refine ⟨(slotBase slot + 1 + (a - (1 + 9 * slot + 1)), d.toList[a - (1 + 9 * slot + 1)]'(by simp; omega)),
        List.mem_cons_of_mem _ (List.mem_mapIdx.mpr ⟨a - (1 + 9 * slot + 1), by simp; omega, rfl⟩), ?_⟩
      simp only [slotBase_eq]; omega

/-- An evaluator that follows the sequence holds no slot index before `CLAIM` is behind it (R20). -/
theorem Evaluator.Follows.unclaimed {e : Evaluator} (h : e.Follows s) (hu : e.upc.val < 12) : e.s = .noval := by
  by_contra hne
  have := h.claimed.mp hne
  omega

end Sys2Proof.Machine
end

