-- ==== Sys2Proof/Laws/Blocks.lean ====
section
/-! SUPPORT. The laws of the vectors the registers hold: a block from its bytes, and a nonce or a digest from its words. -/

namespace Sys2Proof.Machine

/-- The bytes of a block are what it was made from, offset by offset. -/
theorem blockOf_toList (f : Nat → Byte) : (blockOf f).toList = (List.range 64).map f := by
  apply List.ext_getElem
  · simp
  · intro i h1 h2
    simp [blockOf]

/-- A block made from a list of 64 bytes has that list as its bytes. -/
theorem blockOf_list {l : List Byte} (h : l.length = 64) : (blockOf fun i => l.getD i 0).toList = l := by
  rw [blockOf_toList]
  apply List.ext_getElem
  · simp [h]
  · intro i h1 h2
    simp [h2]

/-- A nonce is its four words. -/
theorem Nonce.eq_words (x : Nonce) : x = #v[x[0], x[1], x[2], x[3]] :=
  (Vector.ofFn_getElem (xs := x)).symm

/-- A digest is its eight words. -/
theorem Digest.eq_words (d : Digest) : d = #v[d[0], d[1], d[2], d[3], d[4], d[5], d[6], d[7]] :=
  (Vector.ofFn_getElem (xs := d)).symm

end Sys2Proof.Machine
end

