-- ==== Sys2Proof/Laws/PerInstr.lean ====
section
/-! SUPPORT. The family of statements made of every operation, one lemma per constructor (LAWS.json). -/

namespace Sys2Proof.Laws.Encoding

/-- The operation is well-formed, its command word is valid (R65), and the decoder reads it back (R66). -/
def Statement (i : Instr) : Prop :=
  i.wellFormed = true ∧ (splitCommand (encode i)).wellFormed = true ∧ decode (encode i) = .ok i

theorem kgen : Statement .kgen := by unfold Statement; decide
theorem cube : Statement .cube := by unfold Statement; decide
theorem siglen : Statement .siglen := by unfold Statement; decide
theorem pack1 : Statement .pack1 := by unfold Statement; decide
theorem pack2 : Statement .pack2 := by unfold Statement; decide
theorem shaiv (p : Pass) : Statement (.shaiv p) := by unfold Statement; cases p <;> decide
theorem shacmp (p : Pass) : Statement (.shacmp p) := by unfold Statement; cases p <;> decide
theorem lzn : Statement .lzn := by unfold Statement; decide
theorem qual : Statement .qual := by unfold Statement; decide
theorem claim : Statement .claim := by unfold Statement; decide
theorem record : Statement .record := by unfold Statement; decide
theorem done : Statement .done := by unfold Statement; decide

end Sys2Proof.Laws.Encoding
end

