-- ==== Sys2Proof/Tests/Slice0.lean ====
section
/-! SUPPORT. The tests. Expected values are those of the spec (95_test_vectors.md, 30_encoding.md): V<n> names a vector, P<n> a
program. After them stands, for each statement that has hypotheses, a state and operands that meet them all. -/

namespace Sys2Proof.Tests

open Sys2Proof Sys2Proof.Machine

/-! ### Decoding: each word is written out bit by bit from format `C` and the table of R62 -/

theorem test_decode_kgen : decode 0b00010000 = .ok .kgen := by decide
theorem test_decode_cube : decode 0b00100000 = .ok .cube := by decide
theorem test_decode_siglen : decode 0b00110000 = .ok .siglen := by decide
theorem test_decode_pack1 : decode 0b01000000 = .ok .pack1 := by decide
theorem test_decode_pack2 : decode 0b01010000 = .ok .pack2 := by decide
theorem test_decode_shaiv0 : decode 0b01100000 = .ok (.shaiv .first) := by decide
theorem test_decode_shaiv1 : decode 0b01100001 = .ok (.shaiv .second) := by decide
theorem test_decode_shacmp0 : decode 0b01110000 = .ok (.shacmp .first) := by decide
theorem test_decode_shacmp1 : decode 0b01110001 = .ok (.shacmp .second) := by decide
theorem test_decode_lzn : decode 0b10000000 = .ok .lzn := by decide
theorem test_decode_qual : decode 0b10010000 = .ok .qual := by decide
theorem test_decode_claim : decode 0b10100000 = .ok .claim := by decide
theorem test_decode_record : decode 0b10110000 = .ok .record := by decide
theorem test_decode_done : decode 0b11000000 = .ok .done := by decide

/-- The invalid bytes of V60, each with the check of R65 it fails first. -/
theorem test_decode_rejects :
    ([0x00, 0x01, 0x11, 0x62, 0x63, 0x72, 0x7F, 0xC1, 0xD0, 0xE0, 0xF0, 0xFF] : List Byte).map decode =
      [.error .reservedOp, .error .passBit, .error .passBit, .error .reservedField, .error .reservedField,
       .error .reservedField, .error .reservedField, .error .passBit, .error .reservedOp, .error .reservedOp,
       .error .reservedOp, .error .reservedField] := by decide

/-- "Exactly 14 of the 256 byte values decode to an operation" (V60). -/
theorem test_decode_count :
    ((List.range 256).countP fun c => (decodeTableWord 8 c).isSome) = 14 := by decide +kernel

/-! ### Well-formedness: an ill-formed command word for each check (R65) -/

theorem test_wellFormed_op : Command.wellFormed { op := 0xD, rsv := 0, p := 0 } = false := by decide
theorem test_wellFormed_op_zero : Command.wellFormed { op := 0, rsv := 0, p := 0 } = false := by decide
theorem test_wellFormed_rsv : Command.wellFormed { op := 6, rsv := 1, p := 0 } = false := by decide
theorem test_wellFormed_p : Command.wellFormed { op := 1, rsv := 0, p := 1 } = false := by decide
theorem test_wellFormed_ok : Command.wellFormed { op := 7, rsv := 0, p := 1 } = true := by decide

/-! ### A small state -/

/-- The next state, if there is one. -/
def nextOf : Host.Outcome State Fault Refusal → Option State
  | .next t => some t
  | .fault _ => none
  | .refused _ => none

/-- The fault, if there is one. -/
def faultOf : Host.Outcome State Fault Refusal → Option Fault
  | .next _ => none
  | .fault r => some r
  | .refused _ => none

/-- The refusal, if there is one. -/
def refusalOf : Host.Outcome State Fault Refusal → Option Refusal
  | .next _ => none
  | .fault _ => none
  | .refused r => some r

/-- A batch of the evaluators given, on the buffer given, with `DIFF = 1`. -/
def batch (es : List Evaluator) (rb : Memory) : State :=
  { State.reset with diff := 1, evaluators := es, rb := rb }

/-- A batch of one evaluator, on a zeroed buffer. -/
def alone (e : Evaluator) : State := batch [e] zeroedBuffer

/-- Evaluator 0 as launched. -/
def fresh : Evaluator := Evaluator.fresh 0

/-- The evaluator whose turn it is after an outcome. -/
def evaluatorOf (o : Host.Outcome State Fault Refusal) : Option Evaluator := (nextOf o).bind fun t => t.current

/-- Some words of ResultBuffer after an outcome. -/
def wordsOf (o : Host.Outcome State Fault Refusal) (as : List Nat) : Option (List (Option Word)) :=
  (nextOf o).map fun t => as.map fun a => t.rb.lookup a

/-- The digest of V24 and P1: the first digest of `k = 1`, `diff = 1`. -/
def digestOne : Digest :=
  #v[0x73a4bfe9, 0x68667723, 0x78e8e780, 0x531cf0e5, 0xe61d522f, 0xf2017e1b, 0x21cdc505, 0x2dd52ec6]

/-- The final digest of `k = 1`, `diff = 1` (V51). -/
def digestTwo : Digest :=
  #v[0x25143752, 0x06d0c235, 0x25e3a9e3, 0x5e3a2ee2, 0xda8dfccc, 0x059b658b, 0xc8b2a763, 0x7f9d712c]

/-- The "abc" block of L1-2. -/
def abcBlock : Block := blockOf fun i => ([0x61, 0x62, 0x63, 0x80] ++ List.replicate 59 0 ++ [0x18] : List Byte).getD i 0

/-- The vectors of one digest word, all others zero (V40). -/
def digestAt (j : Nat) (w : Word) : Digest := Vector.ofFn fun i => if i.val = j then w else 0

/-! ### One step of each operation -/

/-- The example of R95. -/
theorem test_kgen :
    (evaluatorOf (exec .kgen { alone { fresh with index := 57 } with startK := 1000 })).map (fun e => e.k) =
      some (.holds 1057) := by decide

/-- The top of the range: the sum is 2^64 - 1. -/
theorem test_kgen_top :
    (evaluatorOf (exec .kgen { alone { fresh with index := 0xFFFFFFFF } with startK := 0xFFFFFFFF00000000 })).map
      (fun e => e.k) = some (.holds 0xFFFFFFFFFFFFFFFF) := by decide

/-- The example of R98. -/
theorem test_cube :
    (evaluatorOf (exec .cube { alone { fresh with k := .holds 3 } with diff := 7 })).map (fun e => e.x) =
      some (.holds #v[0, 0, 0, 0x2c25]) := by decide +kernel

/-- A cube that wraps: row 5 of the table of section 4 of 41_nonce_cube.md. -/
theorem test_cube_wraps :
    (evaluatorOf (exec .cube (alone { fresh with k := .holds 6981463658332 }))).map (fun e => e.x) =
      some (.holds #v[0, 0x0035542f, 0xd84b2151, 0xb8ebb9b8]) := by decide +kernel

/-- The zero bytes at the top of the second word do not count (L1-4). -/
theorem test_siglen :
    (evaluatorOf (exec .siglen (alone { fresh with x := .holds #v[0, 4, 0, 0x7f8] }))).map (fun e => e.l) =
      some (.holds .twelve) := by decide

/-- The last word is not looked at (R99 (a)). -/
theorem test_siglen_zero :
    (evaluatorOf (exec .siglen (alone { fresh with x := .holds #v[0, 0, 0, 0] }))).map (fun e => e.l) =
      some (.holds .four) := by decide

/-- V23: sixteen nonce bytes. -/
theorem test_pack1 :
    (evaluatorOf (exec .pack1 (alone { fresh with
      x := .holds #v[0x00000007, 0xffffffff, 0xfffffffd, 0x000007f9], l := .holds .sixteen }))).map (fun e => e.b1) =
      some (.holds (blockOf fun i => ([0x48, 0x41, 0x48, 0x41, 0x00, 0x00, 0x00, 0x07, 0xff, 0xff, 0xff, 0xff, 0xff, 0xff,
        0xff, 0xfd, 0x00, 0x00, 0x07, 0xf9, 0x80] ++ List.replicate 42 0 ++ [0xa0] : List Byte).getD i 0)) := by
  decide +kernel

/-- V26: the length register, not the nonce, chooses the bytes. -/
theorem test_pack1_length :
    (evaluatorOf (exec .pack1 (alone { fresh with x := .holds #v[1, 2, 3, 4], l := .holds .eight }))).map (fun e => e.b1) =
      some (.holds (blockOf fun i => ([0x48, 0x41, 0x48, 0x41, 0x00, 0x00, 0x00, 0x03, 0x00, 0x00, 0x00, 0x04, 0x80] ++
        List.replicate 50 0 ++ [0x60] : List Byte).getD i 0)) := by decide +kernel

/-- V24. -/
theorem test_pack2 :
    (evaluatorOf (exec .pack2 (alone { fresh with d1 := .holds digestOne }))).map (fun e => e.b2) =
      some (.holds (blockOf fun i => ([0x73, 0xa4, 0xbf, 0xe9, 0x68, 0x66, 0x77, 0x23, 0x78, 0xe8, 0xe7, 0x80, 0x53, 0x1c,
        0xf0, 0xe5, 0xe6, 0x1d, 0x52, 0x2f, 0xf2, 0x01, 0x7e, 0x1b, 0x21, 0xcd, 0xc5, 0x05, 0x2d, 0xd5, 0x2e, 0xc6, 0x80] ++
        List.replicate 29 0 ++ [0x01, 0x00] : List Byte).getD i 0)) := by decide +kernel

/-- V1: the other pass's digest is left alone. -/
theorem test_shaiv :
    (evaluatorOf (exec (.shaiv .second) (alone { fresh with d1 := .holds digestOne }))).map (fun e => (e.d1, e.d2)) =
      some (.holds digestOne, .holds #v[0x6a09e667, 0xbb67ae85, 0x3c6ef372, 0xa54ff53a, 0x510e527f, 0x9b05688c,
        0x1f83d9ab, 0x5be0cd19]) := by decide

/-- V3: SHA-256 of "abc". -/
theorem test_shacmp :
    (evaluatorOf (exec (.shacmp .first) (alone { fresh with d1 := .holds iv, b1 := .holds abcBlock }))).map (fun e => e.d1) =
      some (.holds #v[0xba7816bf, 0x8f01cfea, 0x414140de, 0x5dae2223, 0xb00361a3, 0x96177a9c, 0xb410ff61, 0xf20015ad]) := by
  decide +kernel

/-- Step 9 of P1: the second pass, on the block of the first digest. -/
theorem test_shacmp_second :
    (evaluatorOf (exec (.shacmp .second) (alone { fresh with d2 := .holds iv, b2 := .holds (blockTwo digestOne) }))).map
      (fun e => e.d2) = some (.holds digestTwo) := by decide +kernel

/-- The source's example, L1-6 and V40. -/
theorem test_lzn :
    (evaluatorOf (exec .lzn (alone { fresh with
      d2 := .holds #v[0, 0, 0x000000ab, 0x12345678, 0, 0, 0, 0] }))).map (fun e => e.z) = some (.holds 22) := by
  decide +kernel

/-- More of V40: both ends of the range, and a word boundary. -/
theorem test_lzn_ends :
    [digestZeros (digestAt 8 0), digestZeros (digestAt 0 0x80000000), digestZeros (digestAt 7 1),
      digestZeros (digestAt 7 0x10000000), digestZeros (digestAt 4 0x00080000)] = [64, 0, 63, 56, 35] := by decide +kernel

/-- V41: `Z = TARGET_ZEROS`. -/
theorem test_qual :
    (evaluatorOf (exec .qual { alone { fresh with z := .holds 22 } with targetZeros := 22 })).map (fun e => e.q) =
      some (.holds true) := by decide

/-- V41: a threshold that a cut to seven bits would meet. -/
theorem test_qual_unsigned :
    (evaluatorOf (exec .qual { alone { fresh with z := .holds 5 } with targetZeros := 0xffffffff })).map (fun e => e.q) =
      some (.holds false) := by decide

/-- V50: the counter goes past the capacity. -/
theorem test_claim :
    (evaluatorOf (exec .claim (batch [fresh] (zeroedBuffer.write 0 10)))).map (fun e => e.s) = some (.holds 10) ∧
    wordsOf (exec .claim (batch [fresh] (zeroedBuffer.write 0 10))) [0, 1] = some [some 11, some 0] := by decide +kernel

/-- V51, row `S = 9`: the last slot ends at word 90. -/
theorem test_record :
    wordsOf (exec .record (alone { fresh with index := 0xffffffff, s := .holds 9, d2 := .holds digestTwo }))
      [0, 81, 82, 83, 90] = some [some 0, some 0, some 0xffffffff, some 0x25143752, some 0x7f9d712c] := by decide +kernel

/-- V51, row `S = 10`: nothing is written. -/
theorem test_record_full :
    (nextOf (exec .record (alone { fresh with s := .holds 10, d2 := .holds digestTwo }))).map (fun t => t.rb) =
      some zeroedBuffer := by decide +kernel

/-- R149: a host write in the last word and past it; R53: no read during a batch. -/
theorem test_host_words :
    wordsOf (hostAct (.writeWord 90 7) (batch [] zeroedBuffer)) [89, 90] = some [some 0, some 7] ∧
    faultOf (hostAct (.writeWord 91 7) (batch [] zeroedBuffer)) = some (.noSuchWord 91) ∧
    (batch [] zeroedBuffer).hostRead 90 = some 0 ∧ (batch [] zeroedBuffer).hostRead 91 = none ∧
    (alone fresh).hostRead 0 = none := by decide +kernel

/-- R133, and `fin` is set by `DONE` alone. -/
theorem test_done : evaluatorOf (exec .done (alone fresh)) = some { fresh with fin := true } := by decide

/-! ### Programs -/

/-- P6: the unit program `60 70` on the "abc" block. -/
theorem test_unit_program :
    (evaluatorOf (issueAll [0x60, 0x70] (alone { fresh with b1 := .holds abcBlock }))).map (fun e => e.d1) =
      some (.holds #v[0xba7816bf, 0x8f01cfea, 0x414140de, 0x5dae2223, 0xb00361a3, 0x96177a9c, 0xb410ff61, 0xf20015ad]) := by
  decide +kernel

/-- P8: reserved bytes are refused, operations out of order fault. -/
theorem test_refused :
    refusalOf (issue 0x11 (alone fresh)) = some (.reservedCommand 0x11) ∧
    refusalOf (issue 0xFF (alone fresh)) = some (.reservedCommand 0xFF) ∧
    faultOf (issue 0x70 (alone fresh)) = some (.readNoval .d1) ∧
    faultOf (issue 0x80 (alone fresh)) = some (.readNoval .d2) := by decide

/-- P8: the launches the model refuses, and `BATCH 0`, which it does not. -/
theorem test_launches :
    refusalOf (launch 2 { batch [] zeroedBuffer with startK := 0xffffffffffffffff }) = some .launchKOverflow ∧
    refusalOf (launch 4294967296 (batch [] zeroedBuffer)) = some .launchTooLarge ∧
    refusalOf (launch 5 (batch [] (zeroedBuffer.write 0 3))) = some .launchBufferNotZero ∧
    refusalOf (launch 1 State.reset) = some .launchBufferNotZero ∧
    nextOf (launch 0 (batch [] zeroedBuffer)) = some (batch [] zeroedBuffer) := by decide +kernel

/-- V31: the whole of one evaluation of a candidate with `Z = 5`, at the task level (P7). -/
theorem test_task :
    taskDigest 178255 1 = #v[0x00000226, 0x965e0cef, 0x28af3a7e, 0x67e2e9c5, 0xdb4b7b18, 0x57938662, 0xaac24d25,
      0xe6e6c490] := by decide +kernel

/-- R67: the digit, the spaces and the comment. -/
theorem test_text :
    parseLine [' ', 'S', 'H', 'A', 'I', 'V', ' ', '1', ' ', ';', 'x'] = some (.shaiv .second) ∧
    parseLine ['S', 'H', 'A', 'I', 'V'] = none := by decide +kernel

/-- Each of the fourteen command words, placed after reset, is run by the very next step (log entry 9). -/
theorem test_placed_from_reset :
    ([0x10, 0x20, 0x30, 0x40, 0x60, 0x70, 0x50, 0x61, 0x71, 0x80, 0x90, 0xA0, 0xB0, 0xC0] : List Nat).all
      (fun w => (nextOf (step (State.reset.withFetchWord 8 w))).isSome) = true := by decide +kernel

/-! ### Witnesses: for each statement, a state and operands that meet its hypotheses

`two` has two evaluators with a step left: number 0 at `QUAL`, number 1 past the end with `DONE` to take; the schedule
lets number 1 move first and then number 0. -/

/-- Evaluator 0 at `QUAL`. -/
def judging : Evaluator := { fresh with z := .holds 5, upc := 10 }

/-- Evaluator 1 at `DONE`. -/
def ending : Evaluator := { Evaluator.fresh 1 with upc := 13 }

/-- Evaluator 0 at `CLAIM`. -/
def claiming : Evaluator := { fresh with upc := 11 }

def two : State := { batch [judging, ending] zeroedBuffer with schedule := [1, 0] }

theorem witness_ReservedBytesAreRefused :
    (0xC0 : Byte) ∈ ([0x10, 0x20, 0x30, 0x40, 0x50, 0x60, 0x61, 0x70, 0x71, 0x80, 0x90, 0xA0, 0xB0, 0xC0] : List Byte) ∧
    (0xC1 : Byte) ∉ ([0x10, 0x20, 0x30, 0x40, 0x50, 0x60, 0x61, 0x70, 0x71, 0x80, 0x90, 0xA0, 0xB0, 0xC0] : List Byte) := by
  decide

theorem witness_DecoderReadsTheTable : decode 0xC0 = .ok .done := by decide

theorem witness_ProgramsSurviveEncoding : decodeAll [0x71, 0xC0] = .ok [.shacmp .second, .done] := by decide

theorem witness_StepRunsTheDecodedOperation :
    two.chosen = some 1 ∧ two.evaluators[1]? = some ending ∧ decode (commandAt ending.upc) = .ok .done ∧
    Instr.wellFormed .done = true := by decide

/-- The four cases of "Next upc": `QUAL` with each verdict, `DONE`, and any other operation. -/
theorem witness_StepSetsNextUpc :
    ((alone judging).chosen = some 0 ∧
      ((nextOf (step (alone judging))).bind fun t => t.evaluators[0]?).map (fun v => (v.q, v.upc)) =
        some (.holds true, 11)) ∧
    (((nextOf (step { alone judging with targetZeros := 6 })).bind fun t => t.evaluators[0]?).map (fun v => (v.q, v.upc)) =
        some (.holds false, 13)) ∧
    (two.chosen = some 1 ∧
      ((nextOf (step two)).bind fun t => t.evaluators[1]?).map (fun v => (v.fin, v.upc)) = some (true, 13)) ∧
    (((nextOf (step (alone claiming))).bind fun t => t.evaluators[0]?).map (fun v => v.upc) = some 12) := by
  decide +kernel

theorem witness_AnyUnfinishedEvaluatorMayMove :
    two.chosen = some 1 ∧ two.evaluators[0]? = some judging ∧ judging.fin = false ∧
    State.chosen { two with schedule := 0 :: [1] } = some 0 ∧ (batch [] []).chosen = none := by decide

theorem witness_StepMovesOneEvaluator : two.chosen = some 1 ∧ (nextOf (step two)).isSome = true ∧ (0 : Nat) ≠ 1 := by
  decide +kernel

theorem witness_PlacedCommandIsTheNextStep : two.chosen = some 1 := by decide

/-- One state at the last sum that is stated, whose launch of two is the first that is refused. -/
theorem witness_KgenFormsTheCandidate :
    let s : State := { alone fresh with startK := 0xFFFFFFFFFFFFFFFF }
    (s.current = some fresh ∧ s.startK.toNat + fresh.index.toNat < 2 ^ 64) ∧
    (2 : Nat) ≠ 0 ∧ (2 : Nat) ≤ 2 ^ 32 - 1 ∧ 2 ^ 64 ≤ s.startK.toNat + 2 - 1 := by decide

/-- The first sum that is not stated. -/
theorem witness_KgenCompletesPastTheTop :
    (alone { fresh with index := 1 }).current = some { fresh with index := 1 } ∧
    2 ^ 64 ≤ (0xFFFFFFFFFFFFFFFF : Word64).toNat + (1 : Word).toNat := by decide

theorem witness_CubeComputesTheNonce :
    (alone { fresh with k := .holds 0xFFFFFFFFFFFFFFFF }).current = some { fresh with k := .holds 0xFFFFFFFFFFFFFFFF } ∧
    Evaluator.k { fresh with k := .holds 0xFFFFFFFFFFFFFFFF } = .holds 0xFFFFFFFFFFFFFFFF := by decide

theorem witness_SiglenTestsWholeWords :
    (alone { fresh with x := .holds #v[0, 0, 1, 0] }).current = some { fresh with x := .holds #v[0, 0, 1, 0] } ∧
    Evaluator.x { fresh with x := .holds #v[0, 0, 1, 0] } = .holds #v[0, 0, 1, 0] := by decide

/-- `k = 0`; `diff = 0`; and `k = diff = 1`. -/
theorem witness_ZeroAndOneNonces :
    ((alone { fresh with k := .holds 0 }).current = some { fresh with k := .holds 0 } ∧ (0 : Word64) = 0) ∧
    (State.current { alone { fresh with k := .holds 7 } with diff := 0 } = some { fresh with k := .holds 7 } ∧
      State.diff { alone { fresh with k := .holds 7 } with diff := 0 } = 0) ∧
    ((alone { fresh with k := .holds 1 }).current = some { fresh with k := .holds 1 } ∧
      (alone { fresh with k := .holds 1 }).diff = 1) := by decide

theorem witness_Pack1BuildsBlockOne :
    (alone { fresh with x := .holds #v[0, 0, 0, 1], l := .holds .four }).current =
      some { fresh with x := .holds #v[0, 0, 0, 1], l := .holds .four } ∧
    Evaluator.x { fresh with x := .holds #v[0, 0, 0, 1], l := .holds .four } = .holds #v[0, 0, 0, 1] ∧
    Evaluator.l { fresh with x := .holds #v[0, 0, 0, 1], l := .holds .four } = .holds .four := by decide

theorem witness_Pack2BuildsBlockTwo :
    (alone { fresh with d1 := .holds digestOne }).current = some { fresh with d1 := .holds digestOne } ∧
    Evaluator.d1 { fresh with d1 := .holds digestOne } = .holds digestOne := by decide

theorem witness_ShaivLoadsTheVector : (alone fresh).current = some fresh := by decide

/-- The four cases: each pass with its operands, and each without. -/
theorem witness_ShacmpCompressesInPlace :
    ((alone { fresh with d1 := .holds iv, b1 := .holds abcBlock }).current =
        some { fresh with d1 := .holds iv, b1 := .holds abcBlock } ∧
      Evaluator.d1 { fresh with d1 := .holds iv, b1 := .holds abcBlock } = .holds iv ∧
      Evaluator.b1 { fresh with d1 := .holds iv, b1 := .holds abcBlock } = .holds abcBlock) ∧
    ((alone { fresh with d2 := .holds iv, b2 := .holds abcBlock }).current =
        some { fresh with d2 := .holds iv, b2 := .holds abcBlock } ∧
      Evaluator.d2 { fresh with d2 := .holds iv, b2 := .holds abcBlock } = .holds iv ∧
      Evaluator.b2 { fresh with d2 := .holds iv, b2 := .holds abcBlock } = .holds abcBlock) ∧
    ((alone fresh).current = some fresh ∧ fresh.d1 = .noval ∧ fresh.b1 = .noval ∧ fresh.d2 = .noval ∧
      fresh.b2 = .noval) := by decide +kernel

theorem witness_LznCountsLeadingZeroDigits :
    (alone { fresh with d2 := .holds (digestAt 8 0) }).current = some { fresh with d2 := .holds (digestAt 8 0) } ∧
    Evaluator.d2 { fresh with d2 := .holds (digestAt 8 0) } = .holds (digestAt 8 0) := by decide +kernel

/-- Two digests that differ, after their first nonzero digit: `Z = 0`, so that only digit 0 must agree. -/
theorem witness_CountIsAPrefixProperty :
    digestAt 0 0x80000000 ≠ digestAt 0 0x80000001 ∧ (digestZeros (digestAt 0 0x80000000)).val = 0 ∧
    hexDigit (Digest.value (digestAt 0 0x80000001)) 0 = hexDigit (Digest.value (digestAt 0 0x80000000)) 0 := by
  decide +kernel

/-- Thresholds 0, 64 and 65 at the largest count. -/
theorem witness_QualComparesWithTheThreshold :
    (alone { fresh with z := .holds 64 }).current = some { fresh with z := .holds 64 } ∧
    Evaluator.z { fresh with z := .holds 64 } = .holds 64 ∧ (alone { fresh with z := .holds 64 }).targetZeros = 0 ∧
    (64 : Word).toNat ≤ (64 : Fin 65).val ∧ 64 < (65 : Word).toNat := by decide

/-- The last counter value whose successor is stated. (The clause on a batch: `witness_ClaimTakesTheOldCount_batch`.) -/
theorem witness_ClaimTakesTheOldCount :
    (batch [fresh] (zeroedBuffer.write 0 4294967294)).current = some fresh ∧
    ((batch [fresh] (zeroedBuffer.write 0 4294967294)).rb.read 0).toNat < 2 ^ 32 - 1 ∧ (1 : Nat) ≠ 0 := by
  refine ⟨rfl, ?_, by decide⟩
  simp [batch]

theorem witness_ClaimCompletesAtTheTop :
    (batch [fresh] (zeroedBuffer.write 0 4294967295)).current = some fresh ∧
    ((batch [fresh] (zeroedBuffer.write 0 4294967295)).rb.read 0).toNat = 2 ^ 32 - 1 := by
  refine ⟨rfl, ?_⟩
  simp [batch]

/-- The smallest excess hit, at both operations. -/
theorem witness_NoOperationOverrunsTheBuffer :
    (batch [{ fresh with s := .holds 10 }] (zeroedBuffer.write 0 10)).current = some { fresh with s := .holds 10 } ∧
    10 ≤ ((batch [{ fresh with s := .holds 10 }] (zeroedBuffer.write 0 10)).rb.read 0).toNat ∧
    ((batch [{ fresh with s := .holds 10 }] (zeroedBuffer.write 0 10)).rb.read 0).toNat < 2 ^ 32 - 1 ∧
    Evaluator.s { fresh with s := .holds 10 } = .holds 10 ∧ 10 ≤ (10 : Word).toNat ∧
    Memory.wf (batch [{ fresh with s := .holds 10 }] (zeroedBuffer.write 0 10)).rb ∧
    (nextOf (exec .claim (batch [{ fresh with s := .holds 10 }] (zeroedBuffer.write 0 10)))).isSome = true := by
  refine ⟨rfl, ?_, ?_, rfl, by decide, Memory.write_wf (m := zeroedBuffer) (a := 0) zeroedBuffer_wf (by decide) 10, by decide +kernel⟩ <;> simp [batch]

/-- The last slot, and the first index that is none. -/
theorem witness_RecordFillsTheSlot :
    ((alone { fresh with s := .holds 9, d2 := .holds digestTwo }).current =
        some { fresh with s := .holds 9, d2 := .holds digestTwo } ∧
      Evaluator.s { fresh with s := .holds 9, d2 := .holds digestTwo } = .holds 9 ∧ (9 : Word).toNat < 10 ∧
      Evaluator.d2 { fresh with s := .holds 9, d2 := .holds digestTwo } = .holds digestTwo) ∧
    ((alone { fresh with s := .holds 10 }).current = some { fresh with s := .holds 10 } ∧
      Evaluator.s { fresh with s := .holds 10 } = .holds 10 ∧ ¬ (10 : Word).toNat < 10) := by decide

theorem witness_DoneFinishesTheTask : (alone fresh).current = some fresh := by decide

/-- The clauses whose first registers hold values, beside the launched evaluator that holds none. -/
theorem witness_ReadingNovalFaults :
    ((alone fresh).current = some fresh ∧ fresh.k = .noval ∧ fresh.x = .noval ∧ fresh.d1 = .noval ∧ fresh.d2 = .noval ∧
      fresh.z = .noval ∧ fresh.s = .noval) ∧
    (Evaluator.x { fresh with x := .holds #v[0, 0, 0, 1] } = .holds #v[0, 0, 0, 1] ∧
      Evaluator.l { fresh with x := .holds #v[0, 0, 0, 1] } = .noval) ∧
    (Evaluator.d1 { fresh with d1 := .holds iv } = .holds iv ∧ Evaluator.b1 { fresh with d1 := .holds iv } = .noval) ∧
    (Evaluator.d2 { fresh with d2 := .holds iv } = .holds iv ∧ Evaluator.b2 { fresh with d2 := .holds iv } = .noval) ∧
    (Evaluator.s { fresh with s := .holds 9 } = .holds 9 ∧ (9 : Word).toNat < 10 ∧
      Evaluator.d2 { fresh with s := .holds 9 } = .noval) := by decide

theorem witness_OperationsWriteOneRegister :
    (nextOf (exec .qual two)).isSome = true ∧ (1 : Nat) ≠ two.turn := by decide +kernel

/-- One operation of each clause. -/
theorem witness_OperationsWriteOnlyTheirWords :
    (nextOf (exec .kgen (alone fresh))).isSome = true ∧ (nextOf (exec .claim (alone fresh))).isSome = true ∧
    (nextOf (exec .record (alone { fresh with s := .holds 9, d2 := .holds digestTwo }))).isSome = true ∧
    (nextOf (exec .record (alone { fresh with s := .holds 10 }))).isSome = true := by decide +kernel

/-- Two states that differ in the buffer, the other evaluators, the schedule and the host. -/
theorem witness_PrivateOperationsSeeNothingElse :
    Instr.qual ≠ .claim ∧ Instr.qual ≠ .record ∧ (alone judging).diff = two.diff ∧
    (alone judging).targetZeros = two.targetZeros ∧ (alone judging).startK = two.startK ∧
    (alone judging).current = two.current ∧ (nextOf (exec .qual two)).isSome = true ∧ alone judging ≠ two := by
  decide +kernel

theorem witness_ReadAfterWrite : (1 : Nat) ≠ 0 := by decide

theorem witness_WritesCommute : Memory.wf zeroedBuffer ∧ (1 : Nat) ≠ 90 := by decide +kernel

theorem witness_StepsKeepTheBufferCanonical :
    (alone claiming).rb.wf ∧ (nextOf (step (alone claiming))).isSome = true := by decide +kernel

/-- At `CLAIM` with the last counter value that is stated, and at another operation. -/
theorem witness_CounterGoesUpByOneAtClaims :
    ((batch [claiming] (zeroedBuffer.write 0 4294967294)).chosen = some 0 ∧
      (batch [claiming] (zeroedBuffer.write 0 4294967294)).evaluators[0]? = some claiming ∧
      (nextOf (step (batch [claiming] (zeroedBuffer.write 0 4294967294)))).isSome = true ∧ claiming.upc.val = 11) ∧
    ((alone judging).chosen = some 0 ∧ (nextOf (step (alone judging))).isSome = true ∧ judging.upc.val ≠ 11) := by
  decide +kernel

/-- A launch of one, and the largest batch with the largest candidate. -/
theorem witness_LaunchCreatesFreshEvaluators :
    ((1 : Nat) ≤ 2 ^ 32 - 1 ∧ (batch [] zeroedBuffer).startK.toNat + 1 - 1 < 2 ^ 64 ∧
      ∀ a, a < 91 → (batch [] zeroedBuffer).rb.lookup a = some 0) ∧
    ((4294967295 : Nat) ≤ 2 ^ 32 - 1 ∧ (0xFFFFFFFF00000001 : Word64).toNat + 4294967295 - 1 < 2 ^ 64) := by
  refine ⟨⟨by decide, by decide, fun a ha => lookup_zeroedBuffer ha⟩, by decide, by decide⟩

/-- The three premises, each broken at its boundary (P8). -/
theorem witness_LaunchRefusesBrokenPremises :
    (2 ^ 32 - 1 < (4294967296 : Nat)) ∧
    ((2 : Nat) ≠ 0 ∧ 2 ^ 64 ≤ (0xffffffffffffffff : Word64).toNat + 2 - 1) ∧
    (∃ a, a < 91 ∧ (zeroedBuffer.write 90 3).lookup a ≠ some 0) := by
  refine ⟨by decide, by decide, 90, by decide, by simp⟩

/-- Between batches, and after one. -/
theorem witness_EvaluateBatchLaunches :
    (∀ v ∈ State.reset.evaluators, v.fin = true) ∧ (∀ v ∈ (alone { fresh with fin := true }).evaluators, v.fin = true) ∧
    (1 : Nat) ≤ 2 ^ 32 - 1 ∧ (0xFFFFFFFFFFFFFFFF : Word64).toNat + 1 - 1 < 2 ^ 64 := by decide

theorem witness_HostIsQuietDuringABatch : two.complete = false ∧ (nextOf (step two)).isSome = true := by decide +kernel

theorem witness_NothingPrivateSurvives :
    (alone { fresh with fin := true }).complete = true ∧ (∀ v ∈ ([{ ending with fin := true }] : List Evaluator), v.fin = true) ∧
    (nextOf (step { alone { fresh with fin := true } with host := [.zeroBuffer, .launch 1] })).isSome = true := by
  decide +kernel

/-! ### Witnesses for the invariant of a batch -/

/-- A batch of one as launched (P1). -/
def launched : State := { alone fresh with startK := 1 }

theorem launch_one : launch 1 { batch [] zeroedBuffer with startK := 1 } = .next launched := by
  have hz : zeroedBuffer.isZero = true := by decide +kernel
  simp [launch, maxBatch, noKOverflow, batch, hz, launched, alone, fresh, freshEvaluators, State.reset]

/-- The launched batch meets the invariant: no register is written and no word counted. -/
theorem launched_inv : launched.BatchInv where
  canonical := zeroedBuffer_wf
  fits := by decide
  noOverflow := by decide
  indices := by
    intro j e h
    cases j with
    | zero => cases h; rfl
    | succ j => cases h
  follows := by
    intro e h
    obtain rfl := List.mem_singleton.mp h
    exact Evaluator.fresh_follows _ _
  counter := fun _ => ⟨0, lookup_zeroedBuffer (by decide), by decide⟩
  distinct := by
    intro i j e e' v hi _ hv
    obtain rfl := List.mem_singleton.mp (List.mem_of_getElem? hi)
    cases hv
  below := by
    intro e v h hv
    obtain rfl := List.mem_singleton.mp h
    cases hv
  recorded := by
    intro e v h hr
    obtain rfl := List.mem_singleton.mp h
    cases hr.2
  untouched := fun _ a _ ha _ => lookup_zeroedBuffer ha

/-- The registers of evaluator 0 of the launched batch at its end, with slot index 0 (P1). -/
def recorded : Evaluator :=
  let r := launched.results 0
  { index := 0, k := .holds r.k, x := .holds r.x, l := .holds r.l, b1 := .holds r.b1, d1 := .holds r.d1, b2 := .holds r.b2,
    d2 := .holds r.d2, z := .holds r.z, q := .holds true, s := .holds 0, upc := 13, fin := true }

/-- The launched batch at its end (P1): one hit, in slot 0. -/
def completed : State :=
  { launched with
    evaluators := [recorded], rb := (zeroedBuffer.write 0 1).writeMany (slotWrites 0 0 (launched.results 0).d2) }

/-- The launched batch with evaluator 0 at `CLAIM`, no register of the Result Collector written yet. -/
def reachedClaim : State :=
  { launched with evaluators := [{ recorded with s := .noval, upc := 11, fin := false }] }

theorem completed_results : completed.results = launched.results := State.results_congr rfl rfl rfl

theorem completed_hit : (completed.results 0).q = true := by simp [State.results, completed, launched, alone, batch, State.reset, qualifies]

theorem launched_hit : (launched.results 0).q = true := by
  simp [State.results, launched, alone, batch, State.reset, qualifies]

/-- The batch that has reached `CLAIM` meets the invariant. -/
theorem reachedClaim_inv : reachedClaim.BatchInv where
  canonical := zeroedBuffer_wf
  fits := by show 1 ≤ maxBatch; decide
  noOverflow := by show noKOverflow 1 1 = true; decide
  indices := by
    intro j e h
    cases j with
    | zero => cases h; rfl
    | succ j => cases h
  follows := by
    intro e h
    obtain rfl := List.mem_singleton.mp h
    have hq : (reachedClaim.results 0).q = true := launched_hit
    exact ⟨rfl, rfl, rfl, rfl, rfl, rfl, rfl, rfl, congrArg Reg.holds hq.symm, fun _ => hq,
      ⟨fun h => absurd rfl h, fun h => absurd h.1 (by decide)⟩, fun h => by cases h⟩
  counter := fun _ => ⟨0, lookup_zeroedBuffer (by decide), rfl⟩
  distinct := by
    intro i j e e' v hi _ hv
    obtain rfl := List.mem_singleton.mp (List.mem_of_getElem? hi)
    cases hv
  below := by
    intro e v h hv
    obtain rfl := List.mem_singleton.mp h
    cases hv
  recorded := by
    intro e v h hr
    obtain rfl := List.mem_singleton.mp h
    cases hr.2
  untouched := fun _ a _ ha _ => lookup_zeroedBuffer ha

theorem witness_ClaimTakesTheOldCount_batch :
    reachedClaim.BatchInv ∧ { recorded with s := .noval, upc := 11, fin := false } ∈ reachedClaim.evaluators ∧
    Evaluator.upc { recorded with s := .noval, upc := 11, fin := false } = 11 :=
  ⟨reachedClaim_inv, List.mem_singleton_self _, rfl⟩

theorem completed_counter : completed.rb.lookup 0 = some 1 := by
  show Memory.lookup (Memory.writeMany _ (slotWrites 0 0 (launched.results 0).d2)) 0 = _
  rw [Memory.lookup_writeMany_ne _ fun c hc => by have := (slotWrites_range (by decide) _ _ hc).1; omega]
  simp

/-- The completed batch meets the invariant. -/
theorem completed_inv : completed.BatchInv where
  canonical := Memory.writeMany_wf (Memory.write_wf zeroedBuffer_wf (by decide) 1)
    fun c hc => (slotWrites_range (by decide) _ _ hc).2.2
  fits := by show 1 ≤ maxBatch; decide
  noOverflow := by show noKOverflow 1 1 = true; decide
  indices := by
    intro j e h
    cases j with
    | zero => cases h; rfl
    | succ j => cases h
  follows := by
    intro e h
    obtain rfl := List.mem_singleton.mp h
    exact ⟨rfl, rfl, rfl, rfl, rfl, rfl, rfl, rfl, congrArg Reg.holds completed_hit.symm, fun _ => completed_hit,
      ⟨fun _ => ⟨by decide, completed_hit⟩, fun _ h => by cases h⟩, fun _ => rfl⟩
  counter := fun _ => ⟨1, completed_counter, rfl⟩
  distinct := by
    intro i j e e' v hi hj _ _
    have h : ∀ {k : Nat} {x : Evaluator}, completed.evaluators[k]? = some x → k = 0 := by
      intro k x hk
      cases k with
      | zero => rfl
      | succ k => cases hk
    rw [h hi, h hj]
  below := by
    intro e v h hv
    obtain rfl := List.mem_singleton.mp h
    cases hv
    show 0 < 1
    decide
  recorded := by
    intro e v h hr _ c hc
    obtain rfl := List.mem_singleton.mp h
    cases hr.2
    exact Memory.lookup_writeMany_mem _ (slotWrites_nodup _ _ _) hc
  untouched := by
    intro _ a ha ha2 h
    have h : ∀ c ∈ slotWrites 0 0 (completed.results 0).d2, c.1 ≠ a :=
      h recorded 0 List.mem_cons_self ⟨rfl, rfl⟩ (by decide)
    show Memory.lookup (Memory.writeMany _ (slotWrites 0 0 (completed.results 0).d2)) a = _
    rw [Memory.lookup_writeMany_ne _ h, Memory.lookup_write_ne _ _ (by omega)]
    exact lookup_zeroedBuffer ha2

theorem witness_LaunchEstablishesTheInvariant :
    Memory.wf (State.rb { batch [] zeroedBuffer with startK := 1 }) ∧
    launch 1 { batch [] zeroedBuffer with startK := 1 } = .next launched := ⟨zeroedBuffer_wf, launch_one⟩

theorem witness_StepsKeepTheBatchInvariant : launched.BatchInv ∧ (nextOf (step launched)).isSome = true :=
  ⟨launched_inv, by decide +kernel⟩

theorem witness_EveryStepOfABatchSucceeds : launched.BatchInv ∧ launched.chosen = some 0 := ⟨launched_inv, by decide⟩

theorem witness_CompleteBatchLeavesFinalBuffer :
    completed.BatchInv ∧ completed.complete = true ∧ completed.evaluators ≠ [] := ⟨completed_inv, rfl, by simp [completed]⟩

theorem witness_SlotIndicesAreContiguous : completed.BatchInv ∧ completed.complete = true := ⟨completed_inv, rfl⟩

theorem witness_PopulatedSlotsHoldRecomputedDigests :
    completed.BatchInv ∧ completed.complete = true ∧ completed.evaluators ≠ [] ∧ 0 < completed.populated := by
  refine ⟨completed_inv, rfl, by simp [completed], ?_⟩
  have h := Memory.read_of_lookup completed_counter
  simp [State.populated, h, capacity]

/-- The largest candidate, for an evaluator that is there. -/
theorem witness_OperationsRefineTheTask :
    let s : State := { alone { fresh with index := 0xFFFFFFFF } with startK := 0xFFFFFFFF00000000 }
    s.startK.toNat + (0xFFFFFFFF : Word).toNat < 2 ^ 64 ∧ s.current = some { fresh with index := 0xFFFFFFFF } ∧
    Evaluator.index { fresh with index := 0xFFFFFFFF } = 0xFFFFFFFF := by decide

theorem witness_BatchRunsToItsFinalBuffer :
    Memory.wf (State.rb { batch [] zeroedBuffer with startK := 1 }) ∧
    launch 1 { batch [] zeroedBuffer with startK := 1 } = .next launched := ⟨zeroedBuffer_wf, launch_one⟩

/-- The batch of P1 has one hit, and any two schedules may be compared. -/
theorem witness_ScheduleDecidesOnlySlots :
    Memory.wf (State.rb { batch [] zeroedBuffer with startK := 1 }) ∧
    launch 1 { batch [] zeroedBuffer with startK := 1 } = .next launched ∧ (launched.hits 1).length = 1 ∧
    ([0, 0] : List Nat) ≠ [] := by
  refine ⟨zeroedBuffer_wf, launch_one, ?_, by decide⟩
  simp [State.hits, State.results, launched, alone, batch, State.reset, qualifies]

/-- The batch of P1 at its end: the first and the last word, the word after it, and the one populated slot. -/
theorem witness_HostReadsTheBufferAfterCompletion :
    completed.complete = true ∧ (0 : Nat) < 91 ∧ (90 : Nat) < 91 ∧ (91 : Nat) ≤ 91 ∧ completed.BatchInv ∧
    completed.evaluators ≠ [] ∧ ∃ count, completed.hostRead 0 = some count ∧ 0 < min count.toNat 10 := by
  refine ⟨rfl, by decide, by decide, by decide, completed_inv, by simp [completed], 1, ?_, by decide⟩
  have hc : completed.complete = true := rfl
  simp [State.hostRead, hc, rbWords_eq, Memory.read_of_lookup completed_counter]

/-- After a batch, and after power-on; the last word and the first that does not exist. -/
theorem witness_HostMovesChangeWhatTheyName :
    completed.complete = true ∧ State.reset.complete = true ∧ (90 : Nat) < 91 ∧ (91 : Nat) ≤ 91 := by
  refine ⟨rfl, rfl, by decide, by decide⟩

end Sys2Proof.Tests
end

section
/-! What the ten operations but `CLAIM` and `RECORD` leave depends on the evaluator and the launch parameters alone (R9, R129). -/

namespace Sys2Proof.Machine

/-- An operation but `CLAIM` and `RECORD` puts back one evaluator, and puts back the same one in every state with the same
launch parameters and the same evaluator whose turn it is. -/
theorem exec_private {i : Instr} {s t : State} (hclaim : i ≠ .claim) (hrecord : i ≠ .record) (h : exec i s = .next t) :
    ∃ e w, s.current = some e ∧ t = s.putCurrent w ∧
      ∀ s' : State, s'.diff = s.diff → s'.targetZeros = s.targetZeros → s'.startK = s.startK →
        s'.current = some e → exec i s' = .next (s'.putCurrent w) := by
  obtain ⟨e, hc, heffect⟩ := exec_effect h
  cases heffect with
  | kgen => exact ⟨e, _, hc, rfl, fun s' _ _ hk hc' => by rw [exec_kgen hc', hk]⟩
  | cube hk => exact ⟨e, _, hc, rfl, fun s' hd _ _ hc' => by rw [exec_cube hc' hk, hd]⟩
  | siglen hx => exact ⟨e, _, hc, rfl, fun s' _ _ _ hc' => exec_siglen hc' hx⟩
  | pack1 hx hl => exact ⟨e, _, hc, rfl, fun s' _ _ _ hc' => exec_pack1 hc' hx hl⟩
  | pack2 hd => exact ⟨e, _, hc, rfl, fun s' _ _ _ hc' => exec_pack2 hc' hd⟩
  | shaiv p => exact ⟨e, _, hc, rfl, fun s' _ _ _ hc' => exec_shaiv hc' p⟩
  | shacmp hd hb => exact ⟨e, _, hc, rfl, fun s' _ _ _ hc' => exec_shacmp hc' hd hb⟩
  | lzn hd => exact ⟨e, _, hc, rfl, fun s' _ _ _ hc' => exec_lzn hc' hd⟩
  | qual hz => exact ⟨e, _, hc, rfl, fun s' _ ht _ hc' => by rw [exec_qual hc' hz, ht]⟩
  | claim => exact absurd rfl hclaim
  | recordSlot => exact absurd rfl hrecord
  | recordFull => exact absurd rfl hrecord
  | done => exact ⟨e, _, hc, rfl, fun s' _ _ _ hc' => exec_done hc'⟩

/-- Settles O36: both states put back the evaluator of `exec_private`. -/
theorem privateOperationsSeeNothingElse : Obligations.PrivateOperationsSeeNothingElse := by
  intro i s s' t hclaim hrecord hd ht hk hcur h
  obtain ⟨e, w, hc, rfl, hsame⟩ := exec_private hclaim hrecord h
  have hc' : s'.current = some e := hcur.trans hc
  exact ⟨s'.putCurrent w, hsame s' hd ht hk hc', by rw [State.current_putCurrent hc', State.current_putCurrent hc]⟩

end Sys2Proof.Machine
end

section
/-! One turn of an evaluator that follows the hardwired sequence (R130, R131): the turn succeeds, the evaluator is then the
one of the next place, and ResultBuffer changes at `CLAIM` and `RECORD` alone. -/

namespace Sys2Proof.Machine

variable {s : State}

/-! ### The evaluator the sequence has at a place -/

/-- The evaluator with an index that has come to a place of the sequence (R130): the place and the results decide every
register of its own but `S` and `fin`. -/
def State.evaluatorAt (s : State) (index : Word) (upc : Fin 14) (slot : Reg Word) (fin : Bool) : Evaluator where
  index := index
  k := regFrom 1 upc (s.results index).k
  x := regFrom 2 upc (s.results index).x
  l := regFrom 3 upc (s.results index).l
  b1 := regFrom 4 upc (s.results index).b1
  d1 := if upc.val = 5 then .holds iv else regFrom 6 upc (s.results index).d1
  b2 := regFrom 7 upc (s.results index).b2
  d2 := if upc.val = 8 then .holds iv else regFrom 9 upc (s.results index).d2
  z := regFrom 10 upc (s.results index).z
  q := regFrom 11 upc (s.results index).q
  s := slot
  upc := upc
  fin := fin

/-- An evaluator that follows the sequence is the one of its place. -/
theorem Evaluator.Follows.eq_evaluatorAt {e : Evaluator} (h : e.Follows s) :
    e = s.evaluatorAt e.index e.upc e.s e.fin := by
  obtain ⟨hk, hx, hl, hb1, hd1, hb2, hd2, hz, hq, -, -, -⟩ := h
  rw [State.evaluatorAt, ← hk, ← hx, ← hl, ← hb1, ← hd1, ← hb2, ← hd2, ← hz, ← hq]

/-- The evaluator of a place follows the sequence, if it is there rightly and has its slot index and `fin` rightly. -/
theorem State.evaluatorAt_follows {index : Word} {upc : Fin 14} {slot : Reg Word} {fin : Bool}
    (hqualified : upc.val = 11 ∨ upc.val = 12 → (s.results index).q = true)
    (hclaimed : slot ≠ .noval ↔ 12 ≤ upc.val ∧ (s.results index).q = true)
    (hfinished : fin = true → upc.val = 13) : (s.evaluatorAt index upc slot fin).Follows s :=
  ⟨rfl, rfl, rfl, rfl, rfl, rfl, rfl, rfl, rfl, hqualified, hclaimed, hfinished⟩

/-- The evaluator of a place depends on the results alone. -/
theorem State.evaluatorAt_congr {t : State} (h : t.results = s.results) : t.evaluatorAt = s.evaluatorAt := by
  funext index upc slot fin
  simp only [State.evaluatorAt, h]

@[simp] theorem State.results_select (s : State) (e : Nat) : (s.select e).results = s.results := rfl

@[simp] theorem State.evaluatorAt_select (s : State) (e : Nat) : (s.select e).evaluatorAt = s.evaluatorAt :=
  State.evaluatorAt_congr rfl

/-- An operation of the sequence up to `QUAL`, carried out at its place, brings its evaluator to the next one. -/
theorem exec_evaluatorAt {i : Instr} (hi : (positionOf i).val ≤ 10) {index : Word} {slot : Reg Word} {fin : Bool}
    (hc : s.current = some (s.evaluatorAt index (positionOf i) slot fin)) :
    ∃ w, exec i s = .next (s.putCurrent w) ∧
      { w with upc := nextUpc w.upc w.q } =
        s.evaluatorAt index (nextUpc (positionOf i) (.holds (s.results index).q)) slot fin := by
  cases i with
  | kgen => exact ⟨_, exec_kgen hc, rfl⟩
  | cube => exact ⟨_, exec_cube hc rfl, rfl⟩
  | siglen => exact ⟨_, exec_siglen hc rfl, rfl⟩
  | pack1 => exact ⟨_, exec_pack1 hc rfl rfl, rfl⟩
  | pack2 => exact ⟨_, exec_pack2 hc rfl, rfl⟩
  | shaiv p => cases p <;> exact ⟨_, exec_shaiv hc _, rfl⟩
  | shacmp p => cases p <;> exact ⟨_, exec_shacmp hc rfl rfl, rfl⟩
  | lzn => exact ⟨_, exec_lzn hc rfl, rfl⟩
  | qual =>
    refine ⟨_, exec_qual hc rfl, ?_⟩
    have hq : qualifies (s.results index).z s.targetZeros = (s.results index).q := rfl
    cases hv : (s.results index).q <;> simp [State.evaluatorAt, positionOf, regFrom, nextUpc, hq, hv]
  | claim => exact absurd hi (by decide)
  | record => exact absurd hi (by decide)
  | done => exact absurd hi (by decide)

/-! ### A turn -/

/-- Putting back the evaluator whose turn it is, as it was, changes nothing. -/
theorem State.putCurrent_self {e : Evaluator} (h : s.current = some e) : s.putCurrent e = s := by
  obtain ⟨hlt, rfl⟩ := List.getElem?_eq_some_iff.mp h
  simp [State.putCurrent]

/-- A turn whose operation puts back one evaluator and leaves a buffer puts it back at its next place (R131). -/
theorem takeTurn_putCurrent {e : Nat} {v w : Evaluator} {i : Instr} {m : Memory} (hv : s.evaluators[e]? = some v)
    (hi : positionOf i = v.upc) (hx : exec i (s.select e) = .next (State.putCurrent { s.select e with rb := m } w)) :
    takeTurn e s =
      .next (State.putCurrent { s.select e with rb := m } { w with upc := nextUpc w.upc w.q }) := by
  have hc : (s.select e).current = some v := hv
  have hc' : State.current { s.select e with rb := m } = some v := hv
  rw [takeTurn, onEvaluator_some hc, ← hi, issue_ok (decode_commandAt i), hx]
  simp only [State.advance_eq (State.current_putCurrent hc' w), State.putCurrent_putCurrent]

/-- What `RECORD` leaves of a buffer: the finding in its slot, where there is one with that index (R119). -/
def Memory.withFinding (m : Memory) (slot index : Word) (d : Digest) : Memory :=
  if slot.toNat < 10 then m.writeMany (slotWrites slot.toNat index d) else m

/-- `RECORD` with its operands there, for either kind of slot index. -/
theorem exec_record {e : Evaluator} (h : s.current = some e) {slot : Word} (hs : e.s = .holds slot) {d : Digest}
    (hd : e.d2 = .holds d) : exec .record s = .next { s with rb := s.rb.withFinding slot e.index d } := by
  unfold Memory.withFinding
  split
  · next hlt => exact exec_record_slot h hs hlt hd
  · next hge => exact exec_record_full h hs hge

/-- What a turn of evaluator `v` leaves of the slot index it holds and of ResultBuffer. -/
inductive SharedEffect (s : State) (v : Evaluator) : Evaluator → Memory → Prop where
  /-- A turn at any operation but `CLAIM` and `RECORD` leaves both alone, and brings no slot index past `RECORD`. -/
  | none {v' : Evaluator} (hs : v'.s = v.s) (hrec : ∀ w, v'.hasRecorded w ↔ v.hasRecorded w) :
      SharedEffect s v v' s.rb
  /-- `CLAIM` (R118). -/
  | claim {v' : Evaluator} (hv : v.s = .noval) (hs : v'.s = .holds (s.rb.read 0)) (hu : v'.upc = 12) :
      SharedEffect s v v' (s.rb.write 0 (counterNext (s.rb.read 0)))
  /-- `RECORD` (R119). -/
  | record {v' : Evaluator} {w : Word} (hv : v.s = .holds w) (hs : v'.s = .holds w) (hu : v.upc = 12)
      (hu' : v'.upc = 13) :
      SharedEffect s v v' (s.rb.withFinding w v.index (s.results v.index).d2)

/-- What the turn of evaluator `v` at position `e` does: it succeeds with `v'` put back at a buffer `m`, and `v'` is one step
further in the sequence. -/
structure TurnTo (s : State) (e : Nat) (v v' : Evaluator) (m : Memory) : Prop where
  turn : takeTurn e s = .next (State.putCurrent { s.select e with rb := m } v')
  follows : v'.Follows s
  index : v'.index = v.index
  nearer : v'.stepsLeft s + 1 = v.stepsLeft s
  shared : SharedEffect s v v' m

/-- Where an evaluator with verdict `q` goes from a place up to that of `QUAL`: one on, or from `QUAL` by the verdict (R132). -/
theorem nextUpc_cases {u : Fin 14} (hu : u.val ≤ 10) (q : Bool) :
    (u.val < 10 ∧ (nextUpc u (.holds q)).val = u.val + 1) ∨
    (u.val = 10 ∧ q = true ∧ (nextUpc u (.holds q)).val = 11) ∨
    (u.val = 10 ∧ q = false ∧ (nextUpc u (.holds q)).val = 13) := by
  rw [nextUpc_val]
  by_cases h : u.val = 10
  · cases q <;> simp [h]
  · refine .inl ⟨by omega, ?_⟩
    rw [if_neg h, if_neg (by omega)]

/-- A turn at an operation up to `QUAL`. -/
theorem turnTo_private {e : Nat} {v : Evaluator} {i : Instr} (hv : s.evaluators[e]? = some v) (hf : v.Follows s)
    (hfin : v.fin = false) (hi : positionOf i = v.upc) (hu : v.upc.val ≤ 10) :
    ∃ v', TurnTo s e v v' s.rb := by
  have hslot : v.s = .noval := hf.unclaimed (by omega)
  have heq := hf.eq_evaluatorAt
  rw [hslot, hfin, ← hi] at heq
  have hc : (s.select e).current = some ((s.select e).evaluatorAt v.index (positionOf i) .noval false) :=
    hv.trans (congrArg some heq)
  obtain ⟨w, hx, hw⟩ := exec_evaluatorAt (by rw [hi]; exact hu) hc
  have hturn := takeTurn_putCurrent (m := s.rb) hv hi hx
  rw [hw, hi, State.results_select, State.evaluatorAt_select] at hturn
  have hnext := nextUpc_cases hu (s.results v.index).q
  generalize nextUpc v.upc _ = u at hturn hnext
  refine ⟨_, hturn, State.evaluatorAt_follows ?_ ?_ (by simp), rfl, ?_, .none hslot.symm fun w => ?_⟩
  · intro h
    obtain ⟨hlt, hn⟩ | ⟨-, hq, -⟩ | ⟨-, -, hn⟩ := hnext
    · omega
    · exact hq
    · omega
  · obtain ⟨hlt, hn⟩ | ⟨-, -, hn⟩ | ⟨-, hq, -⟩ := hnext
    · simp [hn]; omega
    · simp [hn]
    · simp [hq]
  · obtain ⟨hlt, hn⟩ | ⟨h10, hq, hn⟩ | ⟨h10, hq, hn⟩ := hnext
    · have hle : v.upc.val + 1 ≤ 10 := by omega
      simp only [Evaluator.stepsLeft, State.evaluatorAt, hfin, hu, hle, hn, if_true, Bool.false_eq_true, if_false]
      split <;> omega
    · simp [Evaluator.stepsLeft, State.evaluatorAt, hfin, h10, hq, hn]
    · simp [Evaluator.stepsLeft, State.evaluatorAt, hfin, h10, hq, hn]
  · simp [Evaluator.hasRecorded, State.evaluatorAt, hslot]

/-- A turn at `CLAIM`. -/
theorem turnTo_claim {e : Nat} {v : Evaluator} (hv : s.evaluators[e]? = some v) (hf : v.Follows s)
    (hfin : v.fin = false) (hu : v.upc = 11) :
    ∃ v', TurnTo s e v v' (s.rb.write 0 (counterNext (s.rb.read 0))) := by
  have hslot : v.s = .noval := hf.unclaimed (by omega)
  have hq : (s.results v.index).q = true := hf.qualified (by omega)
  have heq := hf.eq_evaluatorAt
  rw [hslot, hfin, hu] at heq
  have hturn := takeTurn_putCurrent (i := .claim) hv hu.symm (exec_claim hv)
  refine ⟨s.evaluatorAt v.index 12 (.holds (s.rb.read 0)) false, ?_,
    State.evaluatorAt_follows (fun _ => hq) (by simp [hq]) (by simp), rfl, ?_, .claim hslot rfl rfl⟩
  · rw [hturn, heq]; rfl
  · simp [Evaluator.stepsLeft, State.evaluatorAt, hfin, hu]

/-- A turn at `RECORD`. -/
theorem turnTo_record {e : Nat} {v : Evaluator} (hv : s.evaluators[e]? = some v) (hf : v.Follows s)
    (hfin : v.fin = false) (hu : v.upc = 12) : ∃ v' m, TurnTo s e v v' m := by
  have hq : (s.results v.index).q = true := hf.qualified (by omega)
  obtain ⟨w, hw⟩ : ∃ w, v.s = .holds w := by
    cases hs : v.s with
    | noval => exact absurd hs (hf.claimed.mpr ⟨by omega, hq⟩)
    | holds w => exact ⟨w, rfl⟩
  have hd2 : v.d2 = .holds (s.results v.index).d2 := by rw [hf.d2, hu]; rfl
  have hx : exec .record (s.select e) = .next (State.putCurrent
      { s.select e with rb := s.rb.withFinding w v.index (s.results v.index).d2 } v) := by
    rw [State.putCurrent_self (by exact hv)]
    exact exec_record (s := s.select e) hv hw hd2
  have heq := hf.eq_evaluatorAt
  rw [hfin, hu, hw] at heq
  refine ⟨s.evaluatorAt v.index 13 (.holds w) false, _, ?_,
    State.evaluatorAt_follows (fun _ => hq) (by simp [hq]) (by simp), rfl, ?_, .record hw rfl hu rfl⟩
  · rw [takeTurn_putCurrent (i := .record) hv hu.symm hx]
    congr 2
    rw [heq]; rfl
  · simp [Evaluator.stepsLeft, State.evaluatorAt, hfin, hu]

/-- A turn at `DONE`. -/
theorem turnTo_done {e : Nat} {v : Evaluator} (hv : s.evaluators[e]? = some v) (hf : v.Follows s)
    (hfin : v.fin = false) (hu : v.upc = 13) : ∃ v', TurnTo s e v v' s.rb := by
  have heq := hf.eq_evaluatorAt
  rw [hfin, hu] at heq
  have hclaimed := hf.claimed
  rw [hu] at hclaimed
  refine ⟨s.evaluatorAt v.index 13 v.s true, ?_, State.evaluatorAt_follows (by simp) hclaimed (fun _ => rfl), rfl, ?_,
    .none rfl fun w => ?_⟩
  · rw [takeTurn_putCurrent (i := .done) (m := s.rb) hv hu.symm (exec_done hv)]
    congr 2
    rw [heq]; rfl
  · simp [Evaluator.stepsLeft, State.evaluatorAt, hfin, hu]
  · simp [Evaluator.hasRecorded, State.evaluatorAt, hu]

/-- An evaluator that follows the sequence and has a step takes it. -/
theorem exists_turnTo {e : Nat} {v : Evaluator} (hv : s.evaluators[e]? = some v) (hf : v.Follows s)
    (hfin : v.fin = false) : ∃ v' m, TurnTo s e v v' m := by
  by_cases hu : v.upc.val ≤ 10
  · obtain ⟨i, hi⟩ := exists_positionOf v.upc
    exact (turnTo_private hv hf hfin hi hu).imp fun _ h => ⟨_, h⟩
  · obtain h | h | h : v.upc = 11 ∨ v.upc = 12 ∨ v.upc = 13 := by omega
    · exact (turnTo_claim hv hf hfin h).imp fun _ h => ⟨_, h⟩
    · exact turnTo_record hv hf hfin h
    · exact (turnTo_done hv hf hfin h).imp fun _ h => ⟨_, h⟩

end Sys2Proof.Machine
end

section
/-! Every turn of an evaluator keeps the invariant of a batch (R9, R49 to R51), and a launch establishes it (R34, R170). -/

namespace Sys2Proof.Machine

variable {s t : State}

/-! ### Slot indices by position -/

/-- The evaluator at position `j` holds slot index `w` (R20). -/
def State.HoldsSlot (s : State) (j : Nat) (w : Word) : Prop := ∃ e, s.evaluators[j]? = some e ∧ e.s = .holds w

/-- The evaluator at position `j` has come past `RECORD` with slot index `w`. -/
def State.RecordedSlot (s : State) (j : Nat) (w : Word) : Prop := ∃ e, s.evaluators[j]? = some e ∧ e.hasRecorded w

theorem State.RecordedSlot.holdsSlot {j : Nat} {w : Word} (h : s.RecordedSlot j w) : s.HoldsSlot j w := by
  obtain ⟨e, he, -, hs⟩ := h
  exact ⟨e, he, hs⟩

/-- The finding of evaluator `j`: the words `RECORD` writes for it at slot `w`. -/
def State.finding (s : State) (j : Nat) (w : Word) : List (Nat × Word) :=
  slotWrites w.toNat (BitVec.ofNat 32 j) (s.results (BitVec.ofNat 32 j)).d2

/-- The clauses of the invariant that speak of slots, by position in the batch. -/
structure State.SlotInv (s : State) : Prop where
  distinct : ∀ (i j : Nat) (w : Word), s.HoldsSlot i w → s.HoldsSlot j w → i = j
  below : ∀ (j : Nat) (w : Word), s.HoldsSlot j w → w.toNat < s.claimCount
  recorded : ∀ (j : Nat) (w : Word), s.RecordedSlot j w → w.toNat < 10 →
    ∀ c ∈ s.finding j w, s.rb.lookup c.1 = some c.2
  untouched : s.evaluators ≠ [] → ∀ a, 0 < a → a < 91 →
    (∀ (j : Nat) (w : Word), s.RecordedSlot j w → w.toNat < 10 → ¬ (1 + 9 * w.toNat ≤ a ∧ a < 10 + 9 * w.toNat)) →
    s.rb.lookup a = some 0

/-- An evaluator whose index is its position. -/
theorem Evaluator.index_eq {e : Evaluator} {j : Nat} (h : e.index.toNat = j) : e.index = BitVec.ofNat 32 j := by
  rw [← h]; simp

/-- The index of an evaluator of a batch is its position (R27). -/
theorem State.BatchInv.index_eq (h : s.BatchInv) {j : Nat} {e : Evaluator} (he : s.evaluators[j]? = some e) :
    e.index = BitVec.ofNat 32 j := Evaluator.index_eq (h.indices j e he)

/-- No word of a finding but those of its slot. -/
theorem forall_slotWrites_ne_iff {slot a : Nat} {index : Word} {d : Digest} :
    (∀ c ∈ slotWrites slot index d, c.1 ≠ a) ↔ ¬ (1 + 9 * slot ≤ a ∧ a < 10 + 9 * slot) := by
  rw [← mem_slotWrites_iff (index := index) (d := d)]
  simp only [ne_eq, not_exists, not_and]

/-- The invariant of a batch by positions. -/
theorem State.BatchInv.slotInv (h : s.BatchInv) : s.SlotInv where
  distinct i j w := by
    rintro ⟨e, he, hs⟩ ⟨e', he', hs'⟩
    exact h.distinct i j e e' w he he' hs hs'
  below j w := by
    rintro ⟨e, he, hs⟩
    exact h.below e w (List.mem_of_getElem? he) hs
  recorded j w := by
    rintro ⟨e, he, hr⟩ hw c hc
    refine h.recorded e w (List.mem_of_getElem? he) hr hw c ?_
    rwa [h.index_eq he]
  untouched hne a ha ha' hout := by
    refine h.untouched hne a ha ha' fun e w he hr hw => ?_
    obtain ⟨j, hj⟩ := List.mem_iff_getElem?.mp he
    exact forall_slotWrites_ne_iff.mpr (hout j w ⟨e, hj, hr⟩ hw)

/-- The clauses by position give the invariant. -/
theorem State.SlotInv.batchInv (h : s.SlotInv) (canonical : s.rb.wf) (fits : s.evaluators.length ≤ maxBatch)
    (noOverflow : noKOverflow s.startK s.evaluators.length = true)
    (each : ∀ (j : Nat) (e : Evaluator), s.evaluators[j]? = some e → e.index.toNat = j ∧ e.Follows s)
    (counter : s.evaluators ≠ [] → ∃ c, s.rb.lookup 0 = some c ∧ c.toNat = s.claimCount) : s.BatchInv where
  canonical := canonical
  fits := fits
  noOverflow := noOverflow
  indices j e he := (each j e he).1
  follows e he := by
    obtain ⟨j, hj⟩ := List.mem_iff_getElem?.mp he
    exact (each j e hj).2
  counter := counter
  distinct i j e e' w he he' hs hs' := h.distinct i j w ⟨e, he, hs⟩ ⟨e', he', hs'⟩
  below e w he hs := by
    obtain ⟨j, hj⟩ := List.mem_iff_getElem?.mp he
    exact h.below j w ⟨e, hj, hs⟩
  recorded e w he hr hw c hc := by
    obtain ⟨j, hj⟩ := List.mem_iff_getElem?.mp he
    refine h.recorded j w ⟨e, hj, hr⟩ hw c ?_
    rwa [Evaluator.index_eq (each j e hj).1] at hc
  untouched hne a ha ha' hout := by
    refine h.untouched hne a ha ha' fun j w hr hw => ?_
    obtain ⟨e, hj, hr⟩ := hr
    exact forall_slotWrites_ne_iff.mp (hout e w (List.mem_of_getElem? hj) hr hw)

/-! ### A launch -/

/-- A launch under its premises establishes the invariant, for every canonical buffer (R34, R170). -/
theorem launch_batchInv {n : Nat} (hwf : s.rb.wf) (h : launch n s = .next t) : t.BatchInv := by
  obtain ⟨hfits, hover, hzero, rfl⟩ := launch_next h
  have hzero := (Memory.isZero_iff _).mp hzero
  have hfresh : ∀ (j : Nat) (e : Evaluator), (freshEvaluators n)[j]? = some e →
      j < n ∧ e = Evaluator.fresh (BitVec.ofNat 32 j) := by
    intro j e he
    rw [freshEvaluators_getElem?] at he
    split at he
    · next hj => exact ⟨hj, by simpa using he.symm⟩
    · cases he
  have hnone : ∀ (j : Nat) (w : Word), ¬ State.HoldsSlot { s with evaluators := freshEvaluators n, turn := 0 } j w := by
    rintro j w ⟨e, he, hs⟩
    obtain ⟨-, rfl⟩ := hfresh j e he
    cases hs
  refine State.SlotInv.batchInv ⟨fun i j w hi => absurd hi (hnone i w), fun j w hj => absurd hj (hnone j w),
    fun j w hj => absurd hj.holdsSlot (hnone j w), fun _ a _ ha _ => hzero a ha⟩ hwf (by simpa using hfits)
    (by simpa using hover) (fun j e he => ?_) fun _ => ⟨0, hzero 0 (by decide), ?_⟩
  · obtain ⟨hj, rfl⟩ := hfresh j e he
    refine ⟨?_, Evaluator.fresh_follows _ _⟩
    have hmax : maxBatch = 2 ^ 32 - 1 := rfl
    simp only [Evaluator.fresh_index, BitVec.toNat_ofNat]
    exact Nat.mod_eq_of_lt (by omega)
  · symm
    simp [State.claimCount, freshEvaluators, Evaluator.hasClaimed]

/-! ### A turn -/

/-- The state after a turn that put `v'` back at position `e` and left buffer `m`. -/
abbrev State.afterTurn (s : State) (e : Nat) (v' : Evaluator) (m : Memory) : State :=
  State.putCurrent { s.select e with rb := m } v'

@[simp] theorem State.results_afterTurn (s : State) (e : Nat) (v' : Evaluator) (m : Memory) :
    (s.afterTurn e v' m).results = s.results := rfl

section Turn

variable {e : Nat} {v v' : Evaluator} {m : Memory}

/-- What holds of the evaluator at a position after a turn. -/
theorem exists_getElem?_set {P : Evaluator → Prop} (hv : s.evaluators[e]? = some v) (j : Nat) :
    (∃ x, (s.evaluators.set e v')[j]? = some x ∧ P x) ↔
      if j = e then P v' else ∃ x, s.evaluators[j]? = some x ∧ P x := by
  have hlt := (List.getElem?_eq_some_iff.mp hv).1
  split
  · next h => subst h; simp [hlt]
  · next h => rw [List.getElem?_set_ne (Ne.symm h)]

theorem holdsSlot_afterTurn (hv : s.evaluators[e]? = some v) (j : Nat) (w : Word) :
    (s.afterTurn e v' m).HoldsSlot j w ↔ if j = e then v'.s = .holds w else s.HoldsSlot j w :=
  exists_getElem?_set hv j

theorem recordedSlot_afterTurn (hv : s.evaluators[e]? = some v) (j : Nat) (w : Word) :
    (s.afterTurn e v' m).RecordedSlot j w ↔ if j = e then v'.hasRecorded w else s.RecordedSlot j w :=
  exists_getElem?_set hv j

theorem holdsSlot_iff_of_getElem? (hv : s.evaluators[e]? = some v) (w : Word) : s.HoldsSlot e w ↔ v.s = .holds w := by
  simp [State.HoldsSlot, hv]

theorem recordedSlot_iff_of_getElem? (hv : s.evaluators[e]? = some v) (w : Word) :
    s.RecordedSlot e w ↔ v.hasRecorded w := by
  simp [State.RecordedSlot, hv]

/-- A turn that changes no slot index changes no holder of one. -/
theorem holdsSlot_afterTurn_of_eq (hv : s.evaluators[e]? = some v) (hs : v'.s = v.s) (j : Nat) (w : Word) :
    (s.afterTurn e v' m).HoldsSlot j w ↔ s.HoldsSlot j w := by
  rw [holdsSlot_afterTurn hv]
  split
  · next h => rw [h, holdsSlot_iff_of_getElem? hv, hs]
  · exact Iff.rfl

/-- The claims after a turn. -/
theorem claimCount_afterTurn (hv : s.evaluators[e]? = some v) :
    (s.afterTurn e v' m).claimCount + (if v.hasClaimed then 1 else 0) =
      s.claimCount + (if v'.hasClaimed then 1 else 0) := by
  obtain ⟨hlt, rfl⟩ := List.getElem?_eq_some_iff.mp hv
  have hle : (if s.evaluators[e].hasClaimed then 1 else 0) ≤ s.claimCount := by
    split
    · next h => exact List.countP_pos_iff.mpr ⟨_, List.getElem_mem hlt, h⟩
    · omega
  have hset : (s.afterTurn e v' m).claimCount = _ := List.countP_set hlt
  rw [hset]
  unfold State.claimCount at hle ⊢
  omega

theorem claimCount_afterTurn_of_eq (hv : s.evaluators[e]? = some v) (hs : v'.s = v.s) :
    (s.afterTurn e v' m).claimCount = s.claimCount := by
  simpa [Evaluator.hasClaimed, hs] using claimCount_afterTurn (v' := v') (m := m) hv

/-- The counter of a running batch is the number of claims. -/
theorem State.BatchInv.read_counter (h : s.BatchInv) (hv : s.evaluators[e]? = some v) :
    (s.rb.read 0).toNat = s.claimCount := by
  obtain ⟨c, hc, hcount⟩ := h.counter (List.ne_nil_of_mem (List.mem_of_getElem? hv))
  rw [Memory.read_of_lookup hc, hcount]

/-- Where an evaluator has not claimed, the counter is below the size of the batch, so it has a successor (R56). -/
theorem State.BatchInv.counterNext_read (h : s.BatchInv) (hv : s.evaluators[e]? = some v) (hs : v.s = .noval) :
    (counterNext (s.rb.read 0)).toNat = s.claimCount + 1 := by
  have hlt : s.claimCount < s.evaluators.length := by
    refine lt_of_le_of_ne List.countP_le_length fun heq => ?_
    have := List.countP_eq_length.mp heq v (List.mem_of_getElem? hv)
    simp [Evaluator.hasClaimed, hs] at this
  have hmax : maxBatch = 2 ^ 32 - 1 := rfl
  have hfits := h.fits
  have hread := h.read_counter hv
  rw [counterNext, if_pos (by omega), BitVec.toNat_add, hread]
  exact Nat.mod_eq_of_lt (by simp; omega)

/-! The buffer after `RECORD` (R119). -/

theorem Memory.lookup_withFinding_mem (m : Memory) {slot index : Word} {d : Digest} (hslot : slot.toNat < 10)
    {c : Nat × Word} (hc : c ∈ slotWrites slot.toNat index d) :
    (m.withFinding slot index d).lookup c.1 = some c.2 := by
  rw [Memory.withFinding, if_pos hslot]
  exact Memory.lookup_writeMany_mem m (slotWrites_nodup _ _ _) hc

theorem Memory.lookup_withFinding_ne (m : Memory) {slot index : Word} {d : Digest} {a : Nat}
    (ha : slot.toNat < 10 → ¬ (1 + 9 * slot.toNat ≤ a ∧ a < 10 + 9 * slot.toNat)) :
    (m.withFinding slot index d).lookup a = m.lookup a := by
  unfold Memory.withFinding
  split
  · next hslot => exact Memory.lookup_writeMany_ne m (forall_slotWrites_ne_iff.mpr (ha hslot))
  · rfl

theorem Memory.withFinding_wf {m : Memory} (hm : m.wf) (slot index : Word) (d : Digest) :
    (m.withFinding slot index d).wf := by
  unfold Memory.withFinding
  split
  · next hslot => exact Memory.writeMany_wf hm fun c hc => (slotWrites_range hslot index d hc).2.2
  · exact hm

/-! The clauses of slots after each kind of turn. -/

/-- A turn at any operation but `CLAIM` and `RECORD`. -/
theorem slotInv_afterTurn_none (h : s.SlotInv) (hv : s.evaluators[e]? = some v) (hs : v'.s = v.s)
    (hrec : ∀ w, v'.hasRecorded w ↔ v.hasRecorded w) : (s.afterTurn e v' s.rb).SlotInv := by
  have hne : s.evaluators ≠ [] := List.ne_nil_of_mem (List.mem_of_getElem? hv)
  have hholds := holdsSlot_afterTurn_of_eq (m := s.rb) hv hs
  have hrecorded : ∀ j w, (s.afterTurn e v' s.rb).RecordedSlot j w ↔ s.RecordedSlot j w := by
    intro j w
    rw [recordedSlot_afterTurn hv]
    split
    · next hj => rw [hj, recordedSlot_iff_of_getElem? hv, hrec]
    · exact Iff.rfl
  have hcount := claimCount_afterTurn_of_eq (m := s.rb) hv hs
  refine ⟨?_, ?_, ?_, ?_⟩
  · simpa only [hholds] using h.distinct
  · simpa only [hholds, hcount] using h.below
  · exact fun j w hj => h.recorded j w ((hrecorded j w).mp hj)
  · exact fun _ a ha ha' hout => h.untouched hne a ha ha' (by simpa only [hrecorded] using hout)

/-- A turn at `CLAIM`: the slot index taken is the count before, above every one taken (R50, R51). -/
theorem slotInv_afterTurn_claim (h : s.BatchInv) (hv : s.evaluators[e]? = some v) (hslot : v.s = .noval)
    (hs : v'.s = .holds (s.rb.read 0)) (hu : v'.upc = 12) (x : Word) :
    (s.afterTurn e v' (s.rb.write 0 x)).SlotInv := by
  have hne : s.evaluators ≠ [] := List.ne_nil_of_mem (List.mem_of_getElem? hv)
  have hread := h.read_counter hv
  have hholds : ∀ j w, (s.afterTurn e v' (s.rb.write 0 x)).HoldsSlot j w ↔
      if j = e then w = s.rb.read 0 else s.HoldsSlot j w := by
    intro j w
    rw [holdsSlot_afterTurn hv, hs]
    simp [eq_comm]
  have hrecorded : ∀ j w, (s.afterTurn e v' (s.rb.write 0 x)).RecordedSlot j w ↔ s.RecordedSlot j w := by
    intro j w
    rw [recordedSlot_afterTurn hv]
    split
    · next hj =>
      rw [hj, recordedSlot_iff_of_getElem? hv]
      simp [Evaluator.hasRecorded, hslot, hu]
    · exact Iff.rfl
  have hcount : (s.afterTurn e v' (s.rb.write 0 x)).claimCount = s.claimCount + 1 := by
    simpa [Evaluator.hasClaimed, hslot, hs] using claimCount_afterTurn (v' := v') (m := s.rb.write 0 x) hv
  have hold := h.slotInv
  refine ⟨fun i j w hi hj => ?_, fun j w hj => ?_, fun j w hj hw c hc => ?_, fun _ a ha ha' hout => ?_⟩
  · rw [hholds] at hi hj
    split at hi <;> split at hj
    · next hie hje => rw [hie, hje]
    · have := hold.below j w hj
      rw [hi, hread] at this
      omega
    · have := hold.below i w hi
      rw [hj, hread] at this
      omega
    · exact hold.distinct i j w hi hj
  · rw [hcount]
    rw [hholds] at hj
    split at hj
    · rw [hj, hread]; omega
    · have := hold.below j w hj; omega
  · have hc0 := (slotWrites_range hw _ _ hc).1
    have := hold.recorded j w ((hrecorded j w).mp hj) hw c hc
    rwa [← Memory.lookup_write_ne s.rb x (show c.1 ≠ 0 by omega)] at this
  · have := hold.untouched hne a ha ha' (by simpa only [hrecorded] using hout)
    rwa [← Memory.lookup_write_ne s.rb x (show a ≠ 0 by omega)] at this

/-- A turn at `RECORD`: the finding stands in a slot that is no other evaluator's (R122). -/
theorem slotInv_afterTurn_record (h : s.BatchInv) (hv : s.evaluators[e]? = some v) {w : Word} (hslot : v.s = .holds w)
    (hs : v'.s = .holds w) (hu : v.upc = 12) (hu' : v'.upc = 13) :
    (s.afterTurn e v' (s.rb.withFinding w v.index (s.results v.index).d2)).SlotInv := by
  have hne : s.evaluators ≠ [] := List.ne_nil_of_mem (List.mem_of_getElem? hv)
  generalize hm : s.rb.withFinding w v.index (s.results v.index).d2 = m
  have hholds := holdsSlot_afterTurn_of_eq (m := m) hv (hs.trans hslot.symm)
  have hmine : s.HoldsSlot e w := (holdsSlot_iff_of_getElem? hv w).mpr hslot
  have hrecorded : ∀ j w', (s.afterTurn e v' m).RecordedSlot j w' ↔
      if j = e then w' = w else s.RecordedSlot j w' := by
    intro j w'
    rw [recordedSlot_afterTurn hv]
    simp [Evaluator.hasRecorded, hs, hu', eq_comm]
  have hcount := claimCount_afterTurn_of_eq (m := m) hv (hs.trans hslot.symm)
  have hold := h.slotInv
  refine ⟨?_, ?_, fun j w' hj hw c hc => ?_, fun _ a ha ha' hout => ?_⟩
  · simpa only [hholds] using hold.distinct
  · simpa only [hholds, hcount] using hold.below
  · rw [hrecorded] at hj
    show m.lookup c.1 = _
    rw [← hm]
    split at hj
    · next hje =>
      subst hj hje
      rw [h.index_eq hv]
      exact Memory.lookup_withFinding_mem _ hw hc
    · next hje =>
      have hww : w'.toNat ≠ w.toNat := fun heq =>
        hje (hold.distinct j e w (BitVec.eq_of_toNat_eq heq ▸ hj.holdsSlot) hmine)
      obtain ⟨hlo, hhi, -⟩ := slotWrites_range hw _ _ hc
      rw [Memory.lookup_withFinding_ne _ fun _ => by omega]
      exact hold.recorded j w' hj hw c hc
  · show m.lookup a = _
    rw [← hm, Memory.lookup_withFinding_ne _ (hout e w ((hrecorded e w).mpr (by simp)))]
    refine hold.untouched hne a ha ha' fun j w' hj hw => ?_
    refine hout j w' ((hrecorded j w').mpr ?_) hw
    split
    · next hje =>
      subst hje
      obtain ⟨hu13, -⟩ := (recordedSlot_iff_of_getElem? hv w').mp hj
      rw [hu] at hu13
      exact absurd hu13 (by decide)
    · exact hj

/-- Every turn that its evaluator can take keeps the invariant of the batch (R9, R49 to R51, R121, R130). -/
theorem batchInv_afterTurn (h : s.BatchInv) (hv : s.evaluators[e]? = some v) (ht : TurnTo s e v v' m) :
    (s.afterTurn e v' m).BatchInv := by
  have hne : s.evaluators ≠ [] := List.ne_nil_of_mem (List.mem_of_getElem? hv)
  have hlen : (s.afterTurn e v' m).evaluators.length = s.evaluators.length := List.length_set
  obtain ⟨c, hc, hcount⟩ := h.counter hne
  have heach : ∀ (j : Nat) (x : Evaluator), (s.afterTurn e v' m).evaluators[j]? = some x →
      x.index.toNat = j ∧ x.Follows (s.afterTurn e v' m) := by
    intro j x hx
    have hlt := (List.getElem?_eq_some_iff.mp hv).1
    by_cases hj : j = e
    · subst hj
      obtain rfl : v' = x := by simpa [hlt] using hx
      exact ⟨ht.index ▸ h.indices j v hv, ht.follows.congr (s.results_afterTurn _ _ _)⟩
    · have hx : s.evaluators[j]? = some x := by
        simpa [List.getElem?_set_ne (Ne.symm hj)] using hx
      exact ⟨h.indices j x hx, (h.follows x (List.mem_of_getElem? hx)).congr (s.results_afterTurn _ _ _)⟩
  have hfits : (s.afterTurn e v' m).evaluators.length ≤ maxBatch := hlen ▸ h.fits
  have hover : noKOverflow (s.afterTurn e v' m).startK (s.afterTurn e v' m).evaluators.length = true :=
    hlen ▸ h.noOverflow
  cases ht.shared with
  | none hs hrec =>
    refine (slotInv_afterTurn_none h.slotInv hv hs hrec).batchInv h.canonical hfits hover heach fun _ => ⟨c, hc, ?_⟩
    rw [hcount, claimCount_afterTurn_of_eq hv hs]
  | claim hslot hs hu =>
    refine (slotInv_afterTurn_claim h hv hslot hs hu _).batchInv (Memory.write_wf h.canonical (by decide) _) hfits
      hover heach fun _ => ⟨_, Memory.lookup_write_same _ _ _, ?_⟩
    rw [h.counterNext_read hv hslot]
    simpa [Evaluator.hasClaimed, hslot, hs] using (claimCount_afterTurn (v' := v') hv).symm
  | record hslot hs hu hu' =>
    refine (slotInv_afterTurn_record h hv hslot hs hu hu').batchInv (Memory.withFinding_wf h.canonical _ _ _) hfits
      hover heach fun _ => ⟨c, ?_, ?_⟩
    · exact (Memory.lookup_withFinding_ne _ fun _ => by omega).trans hc
    · rw [hcount, claimCount_afterTurn_of_eq hv (hs.trans hslot.symm)]

end Turn

end Sys2Proof.Machine
end

section
/-! A batch runs to its end under any schedule (R138, R153): every step of it succeeds and brings it one step nearer. -/

namespace Sys2Proof.Machine

variable {s t : State}

/-- Two states of one batch: the same launch parameters and as many evaluators. -/
structure State.SameBatch (s t : State) : Prop where
  diff : t.diff = s.diff
  targetZeros : t.targetZeros = s.targetZeros
  startK : t.startK = s.startK
  length : t.evaluators.length = s.evaluators.length

theorem State.SameBatch.refl (s : State) : s.SameBatch s := ⟨rfl, rfl, rfl, rfl⟩

theorem State.SameBatch.trans {u : State} (h : s.SameBatch t) (h' : t.SameBatch u) : s.SameBatch u :=
  ⟨h'.diff.trans h.diff, h'.targetZeros.trans h.targetZeros, h'.startK.trans h.startK, h'.length.trans h.length⟩

theorem State.SameBatch.results (h : s.SameBatch t) : t.results = s.results :=
  State.results_congr h.diff h.targetZeros h.startK

/-! ### The steps left -/

/-- A sum over a list with one entry replaced. -/
theorem sum_map_set {α : Type} (f : α → Nat) {l : List α} {i : Nat} {a : α} (h : l[i]? = some a) (b : α) :
    ((l.set i b).map f).sum + f a = (l.map f).sum + f b := by
  induction l generalizing i with
  | nil => cases h
  | cons x l ih =>
    cases i with
    | zero =>
      obtain rfl : x = a := by simpa using h
      simp only [List.set_cons_zero, List.map_cons, List.sum_cons]; omega
    | succ i =>
      have := ih (i := i) (by simpa using h)
      simp only [List.set_cons_succ, List.map_cons, List.sum_cons]; omega

/-- An evaluator has no step left iff its `fin` is 1. -/
theorem Evaluator.stepsLeft_eq_zero_iff {e : Evaluator} : e.stepsLeft s = 0 ↔ e.fin = true := by
  have := e.upc.isLt
  unfold Evaluator.stepsLeft
  split
  · simp_all
  · split
    · split <;> simp_all <;> omega
    · simp_all; omega

/-- A batch has no step left iff it is complete (R136). -/
theorem State.stepsLeft_eq_zero_iff : s.stepsLeft = 0 ↔ s.complete = true := by
  simp [State.stepsLeft, State.complete, List.sum_eq_zero_iff, Evaluator.stepsLeft_eq_zero_iff]

/-- Where no evaluator is chosen the batch is complete (R131, R136). -/
theorem State.complete_of_chosen_none (h : s.chosen = none) : s.complete = true := by
  refine List.all_eq_true.mpr fun v hv => ?_
  obtain ⟨j, hj⟩ := List.mem_iff_getElem?.mp hv
  have hlive := State.chosen_none h j
  by_contra hfin
  rw [State.live_iff.mpr ⟨v, hj, by simpa using hfin⟩] at hlive
  cases hlive

/-- A step of an evaluator of a batch succeeds, keeps the invariant and the batch, and leaves one step fewer (R131, R138). -/
theorem step_of_chosen (h : s.BatchInv) {e : Nat} (hc : s.chosen = some e) :
    ∃ t, step s = .next t ∧ t.BatchInv ∧ s.SameBatch t ∧ t.stepsLeft + 1 = s.stepsLeft := by
  obtain ⟨v, hv, hfin⟩ := State.live_iff.mp (State.chosen_live hc)
  obtain ⟨v', m, ht⟩ := exists_turnTo hv (h.follows v (List.mem_of_getElem? hv)) hfin
  refine ⟨s.afterTurn e v' m, ?_, batchInv_afterTurn h hv ht, ⟨rfl, rfl, rfl, List.length_set⟩, ?_⟩
  · rw [step, hc]
    exact ht.turn
  · have hsum := sum_map_set (Evaluator.stepsLeft s) hv v'
    have hnearer := ht.nearer
    have hafter : (s.afterTurn e v' m).stepsLeft = ((s.evaluators.set e v').map (Evaluator.stepsLeft s)).sum := rfl
    rw [hafter, State.stepsLeft]
    omega

/-- A run that can make its first step goes on from there. -/
theorem run_succ_of_step (h : step s = .next t) (k : Nat) : Sys2Proof.core.run (k + 1) s = Sys2Proof.core.run k t := by
  have hcore : Sys2Proof.core.step s = .next t := h
  simp only [Host.Core.run, hcore]

/-- From a state of the invariant as many steps as are left complete the batch (R138, R153). -/
theorem run_stepsLeft (h : s.BatchInv) :
    ∃ t : State, Sys2Proof.core.run s.stepsLeft s = .next t ∧ t.BatchInv ∧ t.complete = true ∧ s.SameBatch t := by
  generalize hk : s.stepsLeft = k
  induction k generalizing s with
  | zero => exact ⟨s, rfl, h, State.stepsLeft_eq_zero_iff.mp hk, .refl s⟩
  | succ k ih =>
    cases hc : s.chosen with
    | none =>
      have := State.stepsLeft_eq_zero_iff.mpr (State.complete_of_chosen_none hc)
      omega
    | some e =>
      obtain ⟨u, hstep, hu, hsame, hleft⟩ := step_of_chosen h hc
      obtain ⟨t, hrun, ht, hcomplete, hsame'⟩ := ih hu (by omega)
      exact ⟨t, (run_succ_of_step hstep k).trans hrun, ht, hcomplete, hsame.trans hsame'⟩

/-- The steps of two kinds of evaluators of a batch, in all. -/
theorem sum_map_ite_eq {α : Type} (p : α → Bool) (l : List α) :
    (l.map fun a => if p a then 14 else 12).sum =
      12 * (l.length - (l.filter p).length) + 14 * (l.filter p).length := by
  induction l with
  | nil => rfl
  | cons a l ih =>
    have := List.length_filter_le p l
    cases hp : p a <;> simp [hp, ih] <;> omega

/-- A launched batch has 12 steps left for each evaluator that does not qualify and 14 for each that does (R138). -/
theorem stepsLeft_of_launched {n : Nat} (h : s.evaluators = freshEvaluators n) :
    s.stepsLeft = 12 * (n - (s.hits n).length) + 14 * (s.hits n).length := by
  have hsum := sum_map_ite_eq (fun j => (s.results (BitVec.ofNat 32 j)).q) (List.range n)
  rw [List.length_range] at hsum
  rw [State.stepsLeft, h, freshEvaluators, List.map_map, State.hits, ← hsum]
  rfl

end Sys2Proof.Machine
end

section
/-! The end of a batch (R121, R122, R139): the slot indices taken are `0 .. H-1`, and ResultBuffer is what R139 promises. -/

namespace Sys2Proof.Machine

variable {s : State}

/-! ### The slot indices taken -/

/-- The slot indices taken so far. -/
def State.slotsTaken (s : State) : List Nat :=
  s.evaluators.filterMap fun e => match e.s with | .holds v => some v.toNat | .noval => none

theorem State.mem_slotsTaken {slot : Nat} : slot ∈ s.slotsTaken ↔ ∃ j w, s.HoldsSlot j w ∧ w.toNat = slot := by
  rw [State.slotsTaken, List.mem_filterMap]
  constructor
  · rintro ⟨e, he, h⟩
    obtain ⟨j, hj⟩ := List.mem_iff_getElem?.mp he
    split at h
    · next w hw => exact ⟨j, w, ⟨e, hj, hw⟩, by simpa using h⟩
    · cases h
  · rintro ⟨j, w, ⟨e, hj, hw⟩, rfl⟩
    exact ⟨e, List.mem_of_getElem? hj, by rw [hw]⟩

theorem State.length_slotsTaken : s.slotsTaken.length = s.claimCount := by
  rw [State.slotsTaken, List.length_filterMap_eq_countP, State.claimCount]
  congr 1
  funext e
  cases hs : e.s <;> simp [Evaluator.hasClaimed, hs]

/-- At every moment of a batch the slot indices taken are exactly those below the number of claims, each once (R50, R51,
R122). -/
theorem State.BatchInv.slotsTaken_perm (h : s.BatchInv) : s.slotsTaken.Perm (List.range s.claimCount) := by
  have hnodup : s.slotsTaken.Nodup := by
    rw [State.slotsTaken, List.Nodup, List.pairwise_filterMap, List.pairwise_iff_getElem]
    intro i j hi hj hij a ha b hb hab
    split at ha
    · next w hw =>
      split at hb
      · next w' hw' =>
        obtain rfl : w.toNat = a := by simpa using ha
        obtain rfl : w'.toNat = b := by simpa using hb
        obtain rfl := BitVec.eq_of_toNat_eq hab
        have := h.distinct i j _ _ w (List.getElem?_eq_getElem hi) (List.getElem?_eq_getElem hj) hw hw'
        omega
      · cases hb
    · cases ha
  have hsubset : s.slotsTaken ⊆ List.range s.claimCount := by
    intro slot hslot
    obtain ⟨j, w, hw, rfl⟩ := State.mem_slotsTaken.mp hslot
    exact List.mem_range.mpr (h.slotInv.below j w hw)
  exact (hnodup.subperm hsubset).perm_of_length_le (by rw [State.length_slotsTaken, List.length_range])

/-- The position of the evaluator that holds a slot index. -/
def State.winner (s : State) (slot : Nat) : Nat :=
  s.evaluators.findIdx fun e => e.s == .holds (BitVec.ofNat 32 slot)

/-- Every slot index below the number of claims is held (R122). -/
theorem State.BatchInv.holdsSlot_winner (h : s.BatchInv) {slot : Nat} (hslot : slot < s.claimCount) :
    s.HoldsSlot (s.winner slot) (BitVec.ofNat 32 slot) := by
  have hmem : slot ∈ s.slotsTaken := h.slotsTaken_perm.mem_iff.mpr (List.mem_range.mpr hslot)
  obtain ⟨j, w, ⟨e, he, hw⟩, hslot⟩ := State.mem_slotsTaken.mp hmem
  have hword : w = BitVec.ofNat 32 slot := by rw [← hslot]; simp
  have hlt : s.winner slot < s.evaluators.length :=
    List.findIdx_lt_length_of_exists ⟨e, List.mem_of_getElem? he, by simp [hw, hword]⟩
  exact ⟨_, List.getElem?_eq_getElem hlt, eq_of_beq (List.findIdx_getElem (w := hlt))⟩

/-- An evaluator holds one slot index at most. -/
theorem State.HoldsSlot.word_unique {j : Nat} {w w' : Word} (h : s.HoldsSlot j w) (h' : s.HoldsSlot j w') : w = w' := by
  obtain ⟨e, he, hs⟩ := h
  obtain ⟨e', he', hs'⟩ := h'
  obtain rfl : e = e' := Option.some.inj (he.symm.trans he')
  exact Reg.holds.inj (hs.symm.trans hs')

/-- The positions of the evaluators that hold a slot of the buffer, slot by slot. -/
def State.winners (s : State) : List Nat := (List.range (min s.claimCount capacity)).map s.winner

theorem State.length_winners : s.winners.length = min s.claimCount capacity := by
  simp [State.winners]

/-- The winner of a slot holds it. -/
theorem State.BatchInv.holdsSlot_of_winners (h : s.BatchInv) {slot j : Nat} (hj : s.winners[slot]? = some j) :
    slot < 10 ∧ ∃ w : Word, w.toNat = slot ∧ s.HoldsSlot j w := by
  have hcapacity := capacity_eq
  have hslot : slot < min s.claimCount capacity := State.length_winners ▸ (List.getElem?_eq_some_iff.mp hj).1
  obtain rfl : s.winner slot = j := by simpa [State.winners, hslot] using hj
  refine ⟨by omega, BitVec.ofNat 32 slot, ?_, h.holdsSlot_winner (by omega)⟩
  rw [BitVec.toNat_ofNat]
  exact Nat.mod_eq_of_lt (by omega)

theorem State.BatchInv.winners_nodup (h : s.BatchInv) : s.winners.Nodup := by
  rw [List.Nodup, List.pairwise_iff_getElem]
  intro i j hi hj hij heq
  obtain ⟨-, w, hw, hholds⟩ := h.holdsSlot_of_winners (List.getElem?_eq_getElem hi)
  obtain ⟨-, w', hw', hholds'⟩ := h.holdsSlot_of_winners (List.getElem?_eq_getElem hj)
  rw [heq] at hholds
  have := congrArg BitVec.toNat (hholds.word_unique hholds')
  omega

/-- Every evaluator that holds a slot of the buffer is a winner. -/
theorem State.BatchInv.mem_winners (h : s.BatchInv) {j : Nat} {w : Word} (hw : s.HoldsSlot j w) (hlt : w.toNat < 10) :
    j ∈ s.winners := by
  have hcapacity := capacity_eq
  have hbelow := h.slotInv.below j w hw
  have hholds := h.holdsSlot_winner hbelow
  rw [BitVec.ofNat_toNat, BitVec.setWidth_eq] at hholds
  exact List.mem_map.mpr ⟨w.toNat, List.mem_range.mpr (by omega), h.slotInv.distinct _ _ w hholds hw⟩

/-! ### A complete batch -/

section Complete

variable (h : s.BatchInv) (hcomplete : s.complete = true)
include h hcomplete

/-- Every evaluator of a complete batch is the one of the last place (R133, R136). -/
theorem complete_evaluator {j : Nat} {e : Evaluator} (he : s.evaluators[j]? = some e) :
    e.upc = 13 ∧ e = s.evaluatorAt (BitVec.ofNat 32 j) 13 e.s true := by
  have hmem := List.mem_of_getElem? he
  have hfin : e.fin = true := List.all_eq_true.mp hcomplete e hmem
  have hf := h.follows e hmem
  have hu : e.upc = 13 := Fin.ext (hf.finished hfin)
  have heq := hf.eq_evaluatorAt
  rw [h.index_eq he, hu, hfin] at heq
  exact ⟨hu, heq⟩

/-- In a complete batch an evaluator has claimed iff it qualifies (R116, R132). -/
theorem complete_claimed_iff {j : Nat} {e : Evaluator} (he : s.evaluators[j]? = some e) :
    e.s ≠ .noval ↔ (s.results (BitVec.ofNat 32 j)).q = true := by
  obtain ⟨hu, -⟩ := complete_evaluator h hcomplete he
  rw [(h.follows e (List.mem_of_getElem? he)).claimed, hu, h.index_eq he]
  simp

/-- In a complete batch the holders of slot indices are the hits. -/
theorem complete_holdsSlot_iff_mem_hits {j : Nat} :
    (∃ w, s.HoldsSlot j w) ↔ j ∈ s.hits s.evaluators.length := by
  rw [State.hits, List.mem_filter, List.mem_range]
  constructor
  · rintro ⟨w, e, he, hw⟩
    exact ⟨(List.getElem?_eq_some_iff.mp he).1, (complete_claimed_iff h hcomplete he).mp (by simp [hw])⟩
  · rintro ⟨hj, hq⟩
    have he := List.getElem?_eq_getElem hj
    cases hw : s.evaluators[j].s with
    | noval => exact absurd hw ((complete_claimed_iff h hcomplete he).mpr hq)
    | holds w => exact ⟨w, _, he, hw⟩

/-- In a complete batch a slot index held is one come past `RECORD`. -/
theorem complete_recordedSlot {j : Nat} {w : Word} (hw : s.HoldsSlot j w) : s.RecordedSlot j w := by
  obtain ⟨e, he, hs⟩ := hw
  obtain ⟨hu, -⟩ := complete_evaluator h hcomplete he
  exact ⟨e, he, by simp [hu], hs⟩

/-- A complete batch has made one claim for each hit (R121). -/
theorem complete_claimCount : s.claimCount = (s.hits s.evaluators.length).length := by
  have heq : s.evaluators.map Evaluator.hasClaimed =
      (List.range s.evaluators.length).map fun j => (s.results (BitVec.ofNat 32 j)).q := by
    refine List.ext_getElem (by simp) fun j hj hj' => ?_
    have hj : j < s.evaluators.length := by simpa using hj
    have := complete_claimed_iff h hcomplete (List.getElem?_eq_getElem hj)
    rw [Bool.eq_iff_iff]
    simpa [Evaluator.hasClaimed] using this
  have hcount := congrArg (List.countP id) heq
  rw [List.countP_map, List.countP_map, List.countP_eq_length_filter (l := List.range _)] at hcount
  exact hcount

/-- A finding of a complete batch stands in its slot, the index and the eight words of the digest (R119, R126). -/
theorem complete_read_slot {j : Nat} {w : Word} (hw : s.HoldsSlot j w) (hlt : w.toNat < 10) :
    s.rb.read (1 + 9 * w.toNat) = BitVec.ofNat 32 j ∧
    ∀ i : Fin 8, s.rb.read (2 + 9 * w.toNat + i.val) = (s.results (BitVec.ofNat 32 j)).d2[i] := by
  have hread : ∀ c ∈ s.finding j w, s.rb.read c.1 = c.2 := fun c hc =>
    Memory.read_of_lookup (h.slotInv.recorded j w (complete_recordedSlot h hcomplete hw) hlt c hc)
  refine ⟨hread (1 + 9 * w.toNat, BitVec.ofNat 32 j) List.mem_cons_self, fun i => ?_⟩
  refine hread (2 + 9 * w.toNat + i.val, _) (List.mem_cons_of_mem _ (List.mem_mapIdx.mpr ⟨i.val, by simp, ?_⟩))
  simp; omega

/-- What R139 promises of ResultBuffer holds of every complete batch. -/
theorem complete_finalBuffer (hne : s.evaluators ≠ []) : s.FinalBuffer s.evaluators.length := by
  have hhits := complete_claimCount h hcomplete
  have hcapacity := capacity_eq
  obtain ⟨c, hc, hcount⟩ := h.counter hne
  refine ⟨by rw [Memory.read_of_lookup hc, hcount, hhits], s.winners, by rw [State.length_winners, hhits],
    h.winners_nodup, fun j hj => ?_, fun slot j hj => ?_, fun a ha ha' => ?_, fun hle j hj => ?_⟩
  · obtain ⟨slot, hslot⟩ := List.mem_iff_getElem?.mp hj
    obtain ⟨-, w, -, hw⟩ := h.holdsSlot_of_winners hslot
    exact (complete_holdsSlot_iff_mem_hits h hcomplete).mp ⟨w, hw⟩
  · obtain ⟨hlt, w, rfl, hw⟩ := h.holdsSlot_of_winners hj
    exact complete_read_slot h hcomplete hw hlt
  · refine Memory.read_of_lookup (h.slotInv.untouched hne a (by omega) ha' fun j w hr hlt => ?_)
    have hbelow := h.slotInv.below j w hr.holdsSlot
    rw [State.length_winners] at ha
    omega
  · obtain ⟨w, hw⟩ := (complete_holdsSlot_iff_mem_hits h hcomplete).mpr hj
    have hbelow := h.slotInv.below j w hw
    exact h.mem_winners hw (by omega)

/-- The registers of a complete batch, but for `S`, are decided by the launch parameters alone (R9). -/
theorem complete_private :
    s.evaluators.map (fun e => { e with s := .noval }) =
      (List.range s.evaluators.length).map fun j => s.evaluatorAt (BitVec.ofNat 32 j) 13 .noval true := by
  refine List.ext_getElem (by simp) fun j hj hj' => ?_
  have hj : j < s.evaluators.length := by simpa using hj
  obtain ⟨-, heq⟩ := complete_evaluator h hcomplete (List.getElem?_eq_getElem hj)
  rw [List.getElem_map, List.getElem_map, List.getElem_range, heq]
  rfl

end Complete

/-- The buffer of a batch without evaluators is what R139 promises: all zero. -/
theorem finalBuffer_zero (h : ∀ a < 91, s.rb.lookup a = some 0) : s.FinalBuffer 0 := by
  have hread : ∀ a, a < 91 → s.rb.read a = 0 := fun a ha => Memory.read_of_lookup (h a ha)
  refine ⟨by rw [hread 0 (by decide)]; rfl, [], rfl, List.nodup_nil, by simp, by simp, fun a _ ha => hread a ha, ?_⟩
  exact fun _ e he => he

end Sys2Proof.Machine
end

section
/-! Two runs of one batch (R9, R123, R139, R153). -/

namespace Sys2Proof.Machine

variable {s : State}

/-- A launched batch runs to its end in the steps of R138 and leaves the buffer of R139, whatever its schedule. -/
theorem launched_batch_runs {n : Nat} {s0 : State} (hwf : s0.rb.wf) (h : launch n s0 = .next s) :
    ∃ t : State, Sys2Proof.core.run (12 * (n - (s.hits n).length) + 14 * (s.hits n).length) s = .next t ∧
      t.BatchInv ∧ t.complete = true ∧ s.SameBatch t ∧ t.evaluators.length = n ∧ t.FinalBuffer n := by
  have hinv := launch_batchInv hwf h
  obtain ⟨-, -, hzero, hs⟩ := launch_next h
  have hfresh : s.evaluators = freshEvaluators n := by rw [hs]
  obtain ⟨t, hrun, ht, hcomplete, hsame⟩ := run_stepsLeft hinv
  have hlen : t.evaluators.length = n := by rw [hsame.length, hfresh, freshEvaluators_length]
  have hsteps := stepsLeft_of_launched hfresh
  refine ⟨t, hsteps ▸ hrun, ht, hcomplete, hsame, hlen, ?_⟩
  cases n with
  | zero =>
    have hst : Sys2Proof.core.run 0 s = .next t := by simpa [hsteps, State.hits] using hrun
    obtain rfl : s = t := Host.Outcome.next.inj hst
    exact finalBuffer_zero ((Memory.isZero_iff _).mp (by rw [hs]; exact hzero))
  | succ n =>
    rw [← hlen]
    exact complete_finalBuffer ht hcomplete fun hnil => by simp [hnil] at hlen

/-- A launch does not look at the schedule. -/
theorem launch_schedule {n : Nat} {s0 : State} (h : launch n s0 = .next s) (schedule : List Nat) :
    launch n { s0 with schedule := schedule } = .next { s with schedule := schedule } := by
  obtain ⟨hfits, hover, hzero, rfl⟩ := launch_next h
  simp [launch, hfits, hover, hzero]

theorem State.hits_congr {t : State} (h : t.results = s.results) (n : Nat) : t.hits n = s.hits n := by
  simp only [State.hits, h]

section FinalBuffer

variable {t : State} {n : Nat} (h : s.FinalBuffer n) (h' : t.FinalBuffer n) (hresults : t.results = s.results)
include h h' hresults

/-- Two final buffers of one batch have the same counter. -/
theorem State.FinalBuffer.read_counter_eq : s.rb.read 0 = t.rb.read 0 := by
  obtain ⟨hcount, -⟩ := h
  obtain ⟨hcount', -⟩ := h'
  rw [State.hits_congr hresults] at hcount'
  exact BitVec.eq_of_toNat_eq (hcount.trans hcount'.symm)

/-- Two final buffers of one batch have the same words past the claimed slots. -/
theorem State.FinalBuffer.read_eq_of_unclaimed {a : Nat} (ha : 1 + 9 * min (s.hits n).length 10 ≤ a) (ha' : a < 91) :
    s.rb.read a = t.rb.read a := by
  obtain ⟨-, winners, hlen, -, -, -, hzero, -⟩ := h
  obtain ⟨-, winners', hlen', -, -, -, hzero', -⟩ := h'
  rw [State.hits_congr hresults] at hlen'
  rw [capacity_eq] at hlen hlen'
  rw [hzero a (by omega) ha', hzero' a (by omega) ha']

/-- With at most ten hits each slot of one final buffer stands in a slot of the other. -/
theorem State.FinalBuffer.exists_slot_eq (hle : (s.hits n).length ≤ 10) {slot : Nat} (hslot : slot < (s.hits n).length) :
    ∃ slot', slot' < (s.hits n).length ∧
      ∀ j : Fin 9, s.rb.read (1 + 9 * slot + j.val) = t.rb.read (1 + 9 * slot' + j.val) := by
  obtain ⟨-, winners, hlen, -, hsub, hslots, -, -⟩ := h
  obtain ⟨-, winners', hlen', -, -, hslots', -, hall'⟩ := h'
  rw [State.hits_congr hresults] at hlen' hall'
  rw [capacity_eq] at hlen hlen' hall'
  have hget : winners[slot]? = some (winners[slot]'(by omega)) := List.getElem?_eq_getElem _
  generalize winners[slot]'(by omega) = e at hget
  obtain ⟨slot', hget'⟩ := List.mem_iff_getElem?.mp (hall' hle e (hsub e (List.mem_of_getElem? hget)))
  have hslot' := (List.getElem?_eq_some_iff.mp hget').1
  obtain ⟨hindex, hdigest⟩ := hslots slot e hget
  obtain ⟨hindex', hdigest'⟩ := hslots' slot' e hget'
  rw [hresults] at hdigest'
  refine ⟨slot', by omega, fun j => ?_⟩
  cases j using Fin.cases with
  | zero => exact hindex.trans hindex'.symm
  | succ j =>
    have := (hdigest j).trans (hdigest' j).symm
    rw [Fin.val_succ]
    convert this using 2 <;> omega

end FinalBuffer

/-- Settles O56: both runs end in the buffer of R139 for the same results, and their evaluators are those of the last place
of the sequence. -/
theorem scheduleDecidesOnlySlots : Obligations.ScheduleDecidesOnlySlots := by
  intro n s0 s one other hwf h hits
  obtain ⟨t, hrun, hinv, hcomplete, hsame, hlen, hfinal⟩ :=
    launched_batch_runs (s0 := { s0 with schedule := one }) hwf (launch_schedule h one)
  obtain ⟨t', hrun', hinv', hcomplete', hsame', hlen', hfinal'⟩ :=
    launched_batch_runs (s0 := { s0 with schedule := other }) hwf (launch_schedule h other)
  have hresults : t.results = s.results := hsame.results
  have hresults' : t'.results = t.results := hsame'.results.trans hresults.symm
  have hhits : t.hits n = s.hits n := State.hits_congr hresults n
  refine ⟨t, t', hrun, hrun', ?_, hsame.diff.trans hsame'.diff.symm, hsame.targetZeros.trans hsame'.targetZeros.symm,
    hsame.startK.trans hsame'.startK.symm, hfinal.read_counter_eq hfinal' hresults', fun a ha ha' => ?_, hfinal, hfinal',
    fun hle slot hslot => ?_⟩
  · rw [complete_private hinv hcomplete, complete_private hinv' hcomplete', hlen, hlen', State.evaluatorAt_congr hresults']
  · exact hfinal.read_eq_of_unclaimed hfinal' hresults' (by rwa [hhits]) ha'
  · have := hfinal.exists_slot_eq hfinal' hresults' (by rwa [hhits]) (slot := slot) (by rwa [hhits])
    rwa [hhits] at this

end Sys2Proof.Machine
end

section
/-! What a turn of an evaluator leaves alone (R10, R128). -/

namespace Sys2Proof.Machine

variable {s t : State}

/-- The frame of every operation: it puts back the evaluator whose turn it is, and may change ResultBuffer. -/
theorem exec_next {i : Instr} (h : exec i s = .next t) :
    ∃ e w m, s.current = some e ∧ t = State.putCurrent { s with rb := m } w := by
  by_cases hclaim : i = .claim
  · subst hclaim
    obtain ⟨e, hc, heffect⟩ := exec_effect h
    cases heffect
    exact ⟨e, _, _, hc, rfl⟩
  by_cases hrecord : i = .record
  · subst hrecord
    obtain ⟨e, hc, heffect⟩ := exec_effect h
    have hself (m : Memory) : State.putCurrent { s with rb := m } e = { s with rb := m } := State.putCurrent_self hc
    cases heffect with
    | recordSlot => exact ⟨e, e, _, hc, (hself _).symm⟩
    | recordFull => exact ⟨e, e, s.rb, hc, (hself s.rb).symm⟩
  · obtain ⟨e, w, hc, rfl, -⟩ := exec_private hclaim hrecord h
    exact ⟨e, w, s.rb, hc, rfl⟩

/-- The frame of a turn of evaluator `e`: it puts back the evaluator at `e`, and may change ResultBuffer. -/
theorem takeTurn_next_afterTurn {e : Nat} (h : takeTurn e s = .next t) : ∃ w m, t = s.afterTurn e w m := by
  obtain ⟨v, i, t', hv, -, hexec, rfl⟩ := takeTurn_next h
  obtain ⟨-, w, m, -, rfl⟩ := exec_next hexec
  have hc : State.current { s.select e with rb := m } = some v := hv
  rw [State.advance_eq (State.current_putCurrent hc w), State.putCurrent_putCurrent]
  exact ⟨_, m, rfl⟩

/-- Settles O9, by the frame of a turn. -/
theorem stepMovesOneEvaluator : Obligations.StepMovesOneEvaluator := by
  intro s t e hc h
  rw [step, hc] at h
  obtain ⟨w, m, rfl⟩ := takeTurn_next_afterTurn h
  exact ⟨List.length_set, fun j hj => State.getElem?_putCurrent_ne hj w, rfl, rfl, rfl, rfl, rfl⟩

end Sys2Proof.Machine
end

section
/-! The faults of the operations: a read of `NOVAL` (R11, R143), and no evaluator whose turn it is (R35). -/

namespace Sys2Proof.Machine

variable {s : State} {e : Evaluator}

theorem exec_cube_noval (h : s.current = some e) (hk : e.k = .noval) : exec .cube s = .fault (.readNoval .k) := by
  simp only [exec, execCube, onEvaluator_some h, hk, readReg_noval]

theorem exec_siglen_noval (h : s.current = some e) (hx : e.x = .noval) : exec .siglen s = .fault (.readNoval .x) := by
  simp only [exec, execSiglen, onEvaluator_some h, hx, readReg_noval]

theorem exec_pack1_noval_x (h : s.current = some e) (hx : e.x = .noval) : exec .pack1 s = .fault (.readNoval .x) := by
  simp only [exec, execPack1, onEvaluator_some h, hx, readReg_noval]

theorem exec_pack1_noval_l (h : s.current = some e) {x : Nonce} (hx : e.x = .holds x) (hl : e.l = .noval) :
    exec .pack1 s = .fault (.readNoval .l) := by
  simp only [exec, execPack1, onEvaluator_some h, hx, hl, readReg_holds, readReg_noval]

theorem exec_pack2_noval (h : s.current = some e) (hd : e.d1 = .noval) : exec .pack2 s = .fault (.readNoval .d1) := by
  simp only [exec, execPack2, onEvaluator_some h, hd, readReg_noval]

theorem exec_shacmp_noval_dsel (h : s.current = some e) {p : Pass} (hd : e.dsel p = .noval) :
    exec (.shacmp p) s = .fault (.readNoval (dselName p)) := by
  simp only [exec, execShacmp, onEvaluator_some h, hd, readReg_noval]

theorem exec_shacmp_noval_bsel (h : s.current = some e) {p : Pass} {d : Digest} (hd : e.dsel p = .holds d)
    (hb : e.bsel p = .noval) : exec (.shacmp p) s = .fault (.readNoval (bselName p)) := by
  simp only [exec, execShacmp, onEvaluator_some h, hd, hb, readReg_holds, readReg_noval]

theorem exec_lzn_noval (h : s.current = some e) (hd : e.d2 = .noval) : exec .lzn s = .fault (.readNoval .d2) := by
  simp only [exec, execLzn, onEvaluator_some h, hd, readReg_noval]

theorem exec_qual_noval (h : s.current = some e) (hz : e.z = .noval) : exec .qual s = .fault (.readNoval .z) := by
  simp only [exec, execQual, onEvaluator_some h, hz, readReg_noval]

theorem exec_record_noval_s (h : s.current = some e) (hs : e.s = .noval) : exec .record s = .fault (.readNoval .s) := by
  simp only [exec, execRecord, onEvaluator_some h, hs, readReg_noval]

theorem exec_record_noval_d2 (h : s.current = some e) {v : Word} (hv : e.s = .holds v) (hlt : v.toNat < 10)
    (hd : e.d2 = .noval) : exec .record s = .fault (.readNoval .d2) := by
  simp only [exec, execRecord, onEvaluator_some h, hv, hd, readReg_holds, readReg_noval, capacity_eq, if_pos hlt]

/-- Where no evaluator has the turn every operation faults (R35). -/
theorem exec_noEvaluator (h : s.current = none) (i : Instr) : exec i s = .fault .noEvaluator := by
  cases i <;> exact onEvaluator_none h _

/-- Settles O33, operation by operation. -/
theorem readingNovalFaults : Obligations.ReadingNovalFaults := by
  intro s e h
  refine ⟨exec_cube_noval h, fun hx => ⟨exec_siglen_noval h hx, exec_pack1_noval_x h hx⟩,
    fun _ hx hl => exec_pack1_noval_l h hx hl, fun hd => ⟨exec_pack2_noval h hd, ?_⟩, fun _ hd hb => ?_,
    fun hd => ⟨?_, exec_lzn_noval h hd⟩, fun _ hd hb => ?_, exec_qual_noval h, exec_record_noval_s h,
    fun _ hv hlt hd => exec_record_noval_d2 h hv hlt hd⟩
  · exact exec_shacmp_noval_dsel h (p := .first) hd
  · exact exec_shacmp_noval_bsel h (p := .first) hd hb
  · exact exec_shacmp_noval_dsel h (p := .second) hd
  · exact exec_shacmp_noval_bsel h (p := .second) hd hb

end Sys2Proof.Machine
end

section
/-! The evaluators between batches: none after power-on (R35), fresh ones at launch (R34), and nothing private left of a
batch (R36). -/

namespace Sys2Proof.Machine

variable {s t : State}

/-- A host move between batches does not depend on the evaluators of the batch before (R36). -/
theorem hostAct_of_complete (h : s.complete = true) (a : HostAction) :
    hostAct a s = hostAct a { s with evaluators := [], turn := 0 } := by
  have hempty : State.complete { s with evaluators := [], turn := 0 } = true := rfl
  simp only [hostAct, h, hempty]

/-- After a host move there is no evaluator, or there are those of a launch (R36). -/
theorem hostAct_evaluators {a : HostAction} (h : hostAct a s = .next t) :
    t.evaluators = [] ∨ ∃ n, t.evaluators = freshEvaluators n := by
  obtain ⟨-, ⟨-, rfl⟩ | ⟨_, _, -, -, rfl⟩ | ⟨_, -, rfl⟩ | ⟨_, -, rfl⟩ | ⟨_, -, rfl⟩ | ⟨n, -, -, -, -, rfl⟩⟩ :=
    hostAct_next h
  exacts [.inl rfl, .inl rfl, .inl rfl, .inl rfl, .inl rfl, .inr ⟨n, rfl⟩]

/-- Every evaluator there is after a host move is a fresh one (R34, R36). -/
theorem hostAct_fresh {a : HostAction} (h : hostAct a s = .next t) {v : Evaluator} (hv : v ∈ t.evaluators) :
    ∃ index, v = Evaluator.fresh index := by
  obtain hnone | ⟨n, hn⟩ := hostAct_evaluators h
  · simp [hnone] at hv
  · rw [hn] at hv
    obtain ⟨j, -, rfl⟩ := List.mem_map.mp hv
    exact ⟨_, rfl⟩

/-- Settles O45: between batches a step is the next move of the host. -/
theorem nothingPrivateSurvives : Obligations.NothingPrivateSurvives := by
  intro s old turn a rest hs hold
  have hs' : State.complete { s with host := rest } = true := hs
  have hold' : State.complete { s with evaluators := old, turn := turn, host := rest } = true :=
    List.all_eq_true.mpr hold
  have hstep : step { s with evaluators := old, turn := turn, host := a :: rest } =
      hostAct a { s with evaluators := old, turn := turn, host := rest } := step_of_complete hold'
  rw [step_of_complete hs, hstep]
  exact ⟨(hostAct_of_complete hold' a).trans (hostAct_of_complete hs' a).symm, fun t h v hv => hostAct_fresh h hv⟩

/-- Settles O48, by the invariant of a launch. -/
theorem launchEstablishesTheInvariant : Obligations.LaunchEstablishesTheInvariant :=
  fun _ _ _ hwf h => launch_batchInv hwf h

/-- Premise `NoKOverflow` as R170 states it: `start_k + N - 1 < 2^64`, vacuous with `N = 0`. -/
theorem noKOverflow_iff (startK : Word64) (n : Nat) :
    noKOverflow startK n = true ↔ n = 0 ∨ startK.toNat + n - 1 < 2 ^ 64 := by
  simp only [noKOverflow, Bool.or_eq_true, decide_eq_true_eq]
  omega

/-- A launch under its premises creates the evaluators and changes nothing else (R34, R170). -/
theorem launch_of_premises {n : Nat} (hfits : n ≤ maxBatch) (hover : noKOverflow s.startK n = true)
    (hzero : s.rb.isZero = true) : launch n s = .next { s with evaluators := freshEvaluators n, turn := 0 } := by
  simp [launch, hfits, hover, hzero]

/-- Settles O41: the launch answers, and position by position its evaluators are fresh ones. -/
theorem launchCreatesFreshEvaluators : Obligations.LaunchCreatesFreshEvaluators := by
  intro n s hfits hover hzero
  refine ⟨_, launch_of_premises hfits ((noKOverflow_iff _ n).mpr hover) ((Memory.isZero_iff _).mpr hzero),
    freshEvaluators_length n, fun j hj => ?_, rfl, rfl, rfl, rfl⟩
  have hindex : (BitVec.ofNat 32 j).toNat = j := by
    rw [BitVec.toNat_ofNat]
    exact Nat.mod_eq_of_lt (by omega)
  have hget : (freshEvaluators n)[j]? = some (Evaluator.fresh (BitVec.ofNat 32 j)) := by
    rw [freshEvaluators_getElem?, if_pos hj]
  exact ⟨_, hget, hindex, rfl, rfl, rfl, rfl, rfl, rfl, rfl, rfl, rfl, rfl, rfl, rfl⟩

/-- Settles O46: without an evaluator no operation is carried out. -/
theorem powerOnHasNoEvaluator : Obligations.PowerOnHasNoEvaluator :=
  ⟨rfl, Memory.lookup_nil, rfl, rfl, exec_noEvaluator rfl⟩

/-- Where no evaluator exists the invariant says that ResultBuffer is canonical, and no more. -/
theorem batchInv_of_no_evaluators (hnone : s.evaluators = []) (hwf : s.rb.wf) : s.BatchInv := by
  have hslot (j : Nat) (w : Word) : ¬ s.HoldsSlot j w := by simp [State.HoldsSlot, hnone]
  refine State.SlotInv.batchInv ⟨fun i j w hi => absurd hi (hslot i w), fun j w hj => absurd hj (hslot j w),
    fun j w hj => absurd hj.holdsSlot (hslot j w), fun hne => absurd hnone hne⟩ hwf ?_ ?_ ?_ fun hne => absurd hnone hne
  · simp [hnone]
  · simp [hnone, noKOverflow]
  · simp [hnone]

/-- Settles O47: after power-on no evaluator exists and no word is listed. -/
theorem resetMeetsTheBatchInvariant : Obligations.ResetMeetsTheBatchInvariant :=
  batchInv_of_no_evaluators rfl ⟨List.Pairwise.nil, fun _ h => nomatch h⟩

end Sys2Proof.Machine
end

section
/-! What an operation and a step do to ResultBuffer: the words that `CLAIM` and `RECORD` write (R45, R49), the canonical form
(R40), and the counter (R56). -/

namespace Sys2Proof.Machine

variable {s t : State}

/-- What an operation leaves of ResultBuffer: only `CLAIM` and `RECORD` write it, and only their words (R49, R129). -/
inductive BufferEffect (s : State) : Instr → Memory → Prop where
  | none {i : Instr} (hclaim : i ≠ .claim) (hrecord : i ≠ .record) : BufferEffect s i s.rb
  /-- `CLAIM` (R118). -/
  | claim : BufferEffect s .claim (s.rb.write 0 (counterNext (s.rb.read 0)))
  /-- `RECORD` with a slot (R119). -/
  | recordSlot {e : Evaluator} {v : Word} (hc : s.current = some e) (hv : e.s = .holds v) (hlt : v.toNat < 10)
      (d : Digest) : BufferEffect s .record (s.rb.writeMany (slotWrites v.toNat e.index d))
  /-- `RECORD` without one (R120). -/
  | recordFull {e : Evaluator} {v : Word} (hc : s.current = some e) (hv : e.s = .holds v) (hge : ¬ v.toNat < 10) :
      BufferEffect s .record s.rb

/-- The inversion lemma of ResultBuffer under an operation. -/
theorem exec_bufferEffect {i : Instr} (h : exec i s = .next t) : BufferEffect s i t.rb := by
  by_cases hclaim : i = .claim
  · subst hclaim
    obtain ⟨e, -, heffect⟩ := exec_effect h
    cases heffect
    exact .claim
  by_cases hrecord : i = .record
  · subst hrecord
    obtain ⟨e, hc, heffect⟩ := exec_effect h
    cases heffect with
    | recordSlot hv hlt _ => exact .recordSlot hc hv hlt _
    | recordFull hv hge => exact .recordFull hc hv hge
  · obtain ⟨e, w, -, rfl, -⟩ := exec_private hclaim hrecord h
    exact .none hclaim hrecord

/-- The inversion lemma of ResultBuffer under a turn: it is what the operation at the evaluator's place leaves (R131). -/
theorem takeTurn_bufferEffect {e : Nat} (h : takeTurn e s = .next t) :
    ∃ v i, s.evaluators[e]? = some v ∧ positionOf i = v.upc ∧ BufferEffect (s.select e) i t.rb := by
  obtain ⟨v, i, t', hv, hi, hexec, rfl⟩ := takeTurn_next h
  exact ⟨v, i, hv, hi, t'.advance_rb ▸ exec_bufferEffect hexec⟩

/-! ### A read after a write -/

/-- Settles O37, by the two laws of a write. -/
theorem readAfterWrite : Obligations.ReadAfterWrite :=
  fun m a _ v => ⟨m.read_write_same a v, m.read_write_ne v⟩

/-- Writing the words of a slot leaves every word outside it as it was (R119). -/
theorem Memory.read_writeMany_slotWrites_ne (m : Memory) {slot a : Nat} (index : Word) (d : Digest)
    (ha : ¬ (1 + 9 * slot ≤ a ∧ a < 10 + 9 * slot)) : (m.writeMany (slotWrites slot index d)).read a = m.read a := by
  simp only [Memory.read, Memory.lookup_writeMany_ne m (forall_slotWrites_ne_iff.mpr ha)]

/-! ### The words an operation leaves alone -/

/-- Settles O35, by the effect of an operation on ResultBuffer. -/
theorem operationsWriteOnlyTheirWords : Obligations.OperationsWriteOnlyTheirWords := by
  intro i s t h
  have heffect := exec_bufferEffect h
  generalize t.rb = m at heffect ⊢
  cases heffect with
  | none hclaim hrecord =>
    exact ⟨fun _ _ _ => rfl, fun hi => absurd hi hclaim, fun hi => absurd hi hrecord⟩
  | claim =>
    exact ⟨fun hi => absurd rfl hi, fun _ _ ha => Memory.read_write_ne _ _ ha, nofun⟩
  | recordSlot hc hv hlt d =>
    refine ⟨fun _ hi => absurd rfl hi, nofun, fun _ => ⟨_, _, hc, hv, fun a ha => ?_⟩⟩
    refine Memory.read_writeMany_slotWrites_ne _ _ _ fun hslot => ha ⟨hlt, hslot.1, ?_⟩
    simp only [slotBase_eq, slotWords]
    omega
  | recordFull hc hv =>
    exact ⟨fun _ _ _ => rfl, nofun, fun _ => ⟨_, _, hc, hv, fun _ _ => rfl⟩⟩

/-! ### The canonical form -/

/-- Every operation keeps the canonical form (R40, R120). -/
theorem BufferEffect.wf {i : Instr} {m : Memory} (h : BufferEffect s i m) (hs : s.rb.wf) : m.wf := by
  cases h with
  | none => exact hs
  | claim => exact Memory.write_wf hs (by decide) _
  | recordSlot _ _ hlt d => exact Memory.writeMany_wf hs fun c hc => (slotWrites_range hlt _ d hc).2.2
  | recordFull => exact hs

/-- Every host move keeps the canonical form (R40, R163). -/
theorem hostAct_wf {a : HostAction} (h : hostAct a s = .next t) (hs : s.rb.wf) : t.rb.wf := by
  obtain ⟨-, ⟨-, rfl⟩ | ⟨w, v, -, hw, rfl⟩ | ⟨_, -, rfl⟩ | ⟨_, -, rfl⟩ | ⟨_, -, rfl⟩ | ⟨_, -, -, -, -, rfl⟩⟩ :=
    hostAct_next h
  exacts [zeroedBuffer_wf, Memory.write_wf hs hw v, hs, hs, hs, hs]

/-- Settles O39: a step is a turn, whose operation keeps the form, or a host move, which does too. -/
theorem stepsKeepTheBufferCanonical : Obligations.StepsKeepTheBufferCanonical := by
  intro s t hs h
  obtain ⟨e, -, hturn⟩ | ⟨-, a, rest, -, hact⟩ := step_cases h
  · obtain ⟨v, i, -, -, heffect⟩ := takeTurn_bufferEffect hturn
    exact heffect.wf hs
  · exact hostAct_wf hact hs

/-! ### The counter -/

/-- Below 2^32 - 1 the counter has a successor (R48, R56). -/
theorem counterNext_toNat {c : Word} (h : c.toNat < 2 ^ 32 - 1) : (counterNext c).toNat = c.toNat + 1 := by
  have hlt : c.toNat + 1 < 2 ^ 32 := by omega
  rw [counterNext, if_pos hlt, BitVec.toNat_add]
  exact Nat.mod_eq_of_lt hlt

/-- `CLAIM` is the operation of place 11 alone (R130). -/
theorem positionOf_eq_claim_iff {i : Instr} : (positionOf i).val = 11 ↔ i = .claim := by
  cases i with
  | shaiv p => cases p <;> simp [positionOf]
  | shacmp p => cases p <;> simp [positionOf]
  | _ => simp [positionOf]

/-- Every operation but `CLAIM` leaves the counter as it was (R56). -/
theorem BufferEffect.read_counter {i : Instr} {m : Memory} (h : BufferEffect s i m) (hi : i ≠ .claim) :
    m.read 0 = s.rb.read 0 := by
  cases h with
  | none => rfl
  | claim => exact absurd rfl hi
  | recordSlot => exact Memory.read_writeMany_slotWrites_ne _ _ _ (by omega)
  | recordFull => rfl

/-- Settles O40: the operation of a turn is `CLAIM` iff its evaluator is at place 11. -/
theorem counterGoesUpByOneAtClaims : Obligations.CounterGoesUpByOneAtClaims := by
  intro s t e v hchosen hv hstep hcounter
  rw [step, hchosen] at hstep
  obtain ⟨v', i, hv', hi, heffect⟩ := takeTurn_bufferEffect hstep
  obtain rfl : v = v' := Option.some.inj (hv.symm.trans hv')
  rw [← hi]
  split
  · next hclaim =>
    obtain rfl := positionOf_eq_claim_iff.mp hclaim
    generalize t.rb = m at heffect ⊢
    cases heffect with
    | none hclaim => exact absurd rfl hclaim
    | claim => rw [Memory.read_write_same, State.select_rb, counterNext_toNat hcounter]
  · next hother =>
    rw [heffect.read_counter fun hclaim => hother (positionOf_eq_claim_iff.mpr hclaim), State.select_rb]

/-! ### The invariant of a batch -/

/-- Every host move keeps the invariant of a batch: it leaves no evaluator, or launches some on a canonical buffer (R36,
R170). -/
theorem hostAct_batchInv {a : HostAction} (h : hostAct a s = .next t) (hs : s.rb.wf) : t.BatchInv := by
  have hwf := hostAct_wf h hs
  obtain ⟨-, ⟨-, rfl⟩ | ⟨_, _, -, -, rfl⟩ | ⟨_, -, rfl⟩ | ⟨_, -, rfl⟩ | ⟨_, -, rfl⟩ |
    ⟨n, -, hfits, hover, hzero, rfl⟩⟩ := hostAct_next h
  · exact batchInv_of_no_evaluators rfl hwf
  · exact batchInv_of_no_evaluators rfl hwf
  · exact batchInv_of_no_evaluators rfl hwf
  · exact batchInv_of_no_evaluators rfl hwf
  · exact batchInv_of_no_evaluators rfl hwf
  · exact launch_batchInv hs (launch_of_premises hfits hover hzero)

/-- Settles O49: a turn keeps the invariant with the batch, and a host move establishes it anew. -/
theorem stepsKeepTheBatchInvariant : Obligations.StepsKeepTheBatchInvariant := by
  intro s t hs h
  obtain ⟨e, hchosen, -⟩ | ⟨-, a, rest, -, hact⟩ := step_cases h
  · obtain ⟨t', hstep, ht', -, -⟩ := step_of_chosen hs hchosen
    obtain rfl : t = t' := Host.Outcome.next.inj (h.symm.trans hstep)
    exact ht'
  · exact hostAct_batchInv hact hs.canonical

end Sys2Proof.Machine
end

section
/-! The digest the operations compute is that of the task level (R90, R108, R110, R134): the nonce and its length as natural
numbers, and the two blocks as the standard's padding. -/

namespace Sys2Proof.Machine

/-! ### The padding of R90, byte by byte -/

/-- A block is decided by its 64 bytes. -/
theorem blockOf_congr {f g : Nat → Byte} (h : ∀ i < 64, f i = g i) : blockOf f = blockOf g := by
  unfold blockOf
  congr 1
  funext i
  exact h i.val i.isLt

@[simp] theorem length_lowBytes (n v : Nat) : (lowBytes n v).length = n := by simp [lowBytes]

/-- Byte `i` of the low `n` bytes of a number, most significant first. -/
theorem getElem_lowBytes {n v i : Nat} (h : i < (lowBytes n v).length) :
    (lowBytes n v)[i] = BitVec.ofNat 8 (v / 256 ^ (n - 1 - i)) := by
  simp [lowBytes]

/-- The low bytes of a number are the last of more of them. -/
theorem drop_lowBytes {n l : Nat} (h : l ≤ n) (v : Nat) : (lowBytes n v).drop (n - l) = lowBytes l v := by
  refine List.ext_getElem (by simp; omega) fun i hi hi' => ?_
  have hplace : n - 1 - (n - l + i) = l - 1 - i := by omega
  rw [List.getElem_drop, getElem_lowBytes, getElem_lowBytes, hplace]

/-- The length field of a padded message: six zero bytes, then the two bytes of the bit length. -/
theorem getD_lowBytes_eight {v i : Nat} (hv : v < 2 ^ 16) (hi : i < 8) :
    (lowBytes 8 v).getD i 0 = if i < 6 then 0x00 else if i = 6 then BitVec.ofNat 8 (v / 256) else BitVec.ofNat 8 v := by
  rw [← List.getElem_eq_getD (h := by simpa using hi), getElem_lowBytes]
  split
  · next h =>
    have hpow : 256 ^ 2 ≤ 256 ^ (8 - 1 - i) := Nat.pow_le_pow_right (by decide) (by omega)
    rw [Nat.div_eq_of_lt (by omega)]
    rfl
  · next h =>
    obtain rfl | rfl : i = 6 ∨ i = 7 := by omega
    · simp
    · simp

/-- The byte of a padded message at an offset (R90). The bit length of a message of one block takes two bytes at most
(R108). -/
def paddedByte (m : List Byte) (i : Nat) : Byte :=
  if i < m.length then m.getD i 0
  else if i = m.length then 0x80
  else if i < 62 then 0x00
  else if i = 62 then BitVec.ofNat 8 (8 * m.length / 256)
  else BitVec.ofNat 8 (8 * m.length)

/-- The padded block of a message that fits, by its bytes. -/
theorem padBlock_eq {m : List Byte} (h : m.length ≤ 55) : padBlock m = blockOf (paddedByte m) := by
  have hlen : (m ++ [0x80] ++ List.replicate (55 - m.length) 0).length = 56 := by simp; omega
  refine blockOf_congr fun i hi => ?_
  by_cases hfield : i < 56
  · rw [List.getD_append _ _ _ _ (by omega), paddedByte]
    split
    · next hm => rw [List.append_assoc, List.getD_append _ _ _ _ hm]
    · split
      · next hm => simp [hm]
      · rw [List.getD_append_right _ _ _ _ (by simp; omega), if_pos (by omega)]
        simp
  · have hsix : i - 56 < 6 ↔ i < 62 := by omega
    have hseven : i - 56 = 6 ↔ i = 62 := by omega
    rw [List.getD_append_right _ _ _ _ (by omega), hlen, paddedByte, if_neg (by omega), if_neg (by omega),
      getD_lowBytes_eight (by omega) (by omega)]
    simp only [hsix, hseven]

/-- MessageBlockTwo is the padding of the 32 bytes of the first digest (R108). -/
theorem blockTwo_eq_padBlock (d : Digest) : blockTwo d = padBlock (Digest.bytes d) := by
  have hlen : (Digest.bytes d).length = 32 := by
    rw [Digest.eq_words d]; rfl
  rw [padBlock_eq (by omega), blockTwo]
  refine blockOf_congr fun i _ => ?_
  simp only [blockTwoByte, paddedByte, hlen]
  rfl

theorem SigLen.bytes_le (l : SigLen) : l.bytes ≤ 16 := by cases l <;> decide

theorem length_nonceBytes (x : Nonce) : (nonceBytes x).length = 16 := by
  rw [Nonce.eq_words x]; rfl

/-- MessageBlockOne is the padding of the marker and the low bytes of the nonce (R108). -/
theorem blockOne_eq_padBlock (x : Nonce) (l : SigLen) :
    blockOne x l = padBlock (marker ++ (nonceBytes x).drop (16 - l.bytes)) := by
  have hle := l.bytes_le
  have hmarker : marker.length = 4 := rfl
  have hlen : (marker ++ (nonceBytes x).drop (16 - l.bytes)).length = 4 + l.bytes := by
    simp [length_nonceBytes, hmarker]; omega
  have hhigh : (BitVec.ofNat 16 ((4 + l.bytes) * 8)).extractLsb' 8 8 = BitVec.ofNat 8 (8 * (4 + l.bytes) / 256) := by
    cases l <;> rfl
  have hlow : (BitVec.ofNat 16 ((4 + l.bytes) * 8)).extractLsb' 0 8 = BitVec.ofNat 8 (8 * (4 + l.bytes)) := by
    cases l <;> rfl
  rw [padBlock_eq (by omega), blockOne]
  refine blockOf_congr fun i _ => ?_
  simp only [blockOneByte, paddedByte, hlen, hhigh, hlow]
  by_cases h4 : i < 4
  · rw [if_pos h4, if_pos (by omega), List.getD_append _ _ _ _ h4]
  · rw [if_neg h4, List.getD_append_right _ _ _ _ (by omega), hmarker]
    simp only [List.getD_eq_getElem?_getD, List.getElem?_drop]

/-! ### The nonce as a natural number -/

/-- A byte of a word of a 128-bit value is a byte of the value. -/
theorem extractLsb'_byte_of_word (v : Word128) (n : Nat) {m : Nat} (hm : m ≤ 24) :
    (v.extractLsb' n 32).extractLsb' m 8 = BitVec.ofNat 8 (v.toNat / 2 ^ (n + m)) := by
  refine BitVec.eq_of_getLsbD_eq fun i hi => ?_
  have hin : m + i < 32 := by omega
  have hplace : n + (m + i) = n + m + i := by omega
  simp only [BitVec.getLsbD_extractLsb', BitVec.getLsbD_ofNat, hi, hin, decide_true, Bool.true_and,
    Nat.testBit_div_two_pow, BitVec.testBit_toNat, hplace, Nat.add_comm i]

/-- The four bytes of a word of a 128-bit value, most significant first (R43). -/
theorem be32_extractLsb' (v : Word128) (n : Nat) :
    be32 (v.extractLsb' n 32) = [24, 16, 8, 0].map fun m => BitVec.ofNat 8 (v.toNat / 2 ^ (n + m)) := by
  simp [be32, extractLsb'_byte_of_word]

/-- The sixteen bytes of the nonce are those of its value (R13, R43). -/
theorem nonceBytes_splitNonce (v : Word128) : nonceBytes (splitNonce v) = lowBytes 16 v.toNat := by
  simp [nonceBytes, splitNonce, bytesOf, be32_extractLsb', lowBytes, List.range_succ]

/-- What `CUBE` computes is the task's nonce (R98, R134). -/
theorem cubeValue_toNat (k : Word64) (diff : Word) : (cubeValue k diff).toNat = taskNonce k.toNat diff.toNat := by
  simp [cubeValue, mul128, add128, addConst, taskNonce, pow_three']

/-- The top word of what is left of a 128-bit value is not zero iff the number reaches its weight. -/
theorem extractLsb'_ne_zero_iff {v : Word128} {n : Nat} (h : v.toNat < 2 ^ (n + 32)) :
    v.extractLsb' n 32 ≠ 0 ↔ 2 ^ n ≤ v.toNat := by
  have hdiv : v.toNat / 2 ^ n < 2 ^ 32 := by
    rw [Nat.div_lt_iff_lt_mul (Nat.two_pow_pos n), ← Nat.pow_add, Nat.add_comm]
    exact h
  rw [ne_eq, ← BitVec.toNat_inj, BitVec.extractLsb'_toNat, Nat.shiftRight_eq_div_pow, Nat.mod_eq_of_lt hdiv]
  simp

/-- The length `SIGLEN` finds is the task's (R99, R134). -/
theorem significantLength_splitNonce (v : Word128) : (significantLength (splitNonce v)).bytes = taskLength v.toNat := by
  have h0 : (splitNonce v)[0] ≠ 0 ↔ 2 ^ 96 ≤ v.toNat := extractLsb'_ne_zero_iff v.isLt
  simp only [significantLength, taskLength, h0]
  split
  · rfl
  · next hlt =>
    have h1 : (splitNonce v)[1] ≠ 0 ↔ 2 ^ 64 ≤ v.toNat := extractLsb'_ne_zero_iff (by omega)
    simp only [h1]
    split
    · rfl
    · next hlt =>
      have h2 : (splitNonce v)[2] ≠ 0 ↔ 2 ^ 32 ≤ v.toNat := extractLsb'_ne_zero_iff (by omega)
      simp only [h2]
      split <;> rfl

/-! ### The digest -/

/-- MessageBlockOne of a candidate is the padding of the task's message (R108, R134). -/
theorem blockOne_cubeNonce (k : Word64) (diff : Word) :
    blockOne (cubeNonce k diff) (significantLength (cubeNonce k diff)) =
      padBlock (taskMessage (taskNonce k.toNat diff.toNat)) := by
  have hlen := significantLength_splitNonce (cubeValue k diff)
  have hle := (significantLength (splitNonce (cubeValue k diff))).bytes_le
  rw [hlen] at hle
  rw [cubeNonce, blockOne_eq_padBlock, nonceBytes_splitNonce, hlen, drop_lowBytes hle, cubeValue_toNat]
  rfl

/-- A candidate below 2^64 is the plain sum (R95). -/
theorem candidate_toNat {startK : Word64} {index : Word} (h : startK.toNat + index.toNat < 2 ^ 64) :
    (candidate startK index).toNat = startK.toNat + index.toNat := by
  have hindex := index.isLt
  rw [candidate, if_pos h, BitVec.toNat_add, BitVec.toNat_setWidth, Nat.mod_eq_of_lt (a := index.toNat) (by omega)]
  exact Nat.mod_eq_of_lt h

/-- The digest the operations leave in `D2` is the task's (R110, R134). -/
theorem State.results_d2 {s : State} {index : Word} (h : s.startK.toNat + index.toNat < 2 ^ 64) :
    (s.results index).d2 = taskDigest (s.startK.toNat + index.toNat) s.diff.toNat := by
  simp only [State.results, blockOne_cubeNonce, blockTwo_eq_padBlock, candidate_toNat h]
  rfl

end Sys2Proof.Machine
end

section
/-! What the host reads of a complete batch (R52, R126, R137). -/

namespace Sys2Proof.Machine

variable {s : State}

/-- Once the batch is complete the host reads every word there is (R52). -/
theorem hostRead_of_complete (h : s.complete = true) {a : Nat} (ha : a < 91) : s.hostRead a = some (s.rb.read a) := by
  simp [State.hostRead, h, rbWords_eq, ha]

/-- There is no word above 90 to read (R40). -/
theorem hostRead_above {a : Nat} (ha : 91 ≤ a) : s.hostRead a = none := by
  refine if_neg fun ⟨_, hlt⟩ => ?_
  rw [rbWords_eq] at hlt
  omega

/-- The candidate of an evaluator of a batch: its index as a number is its position, and the sum does not overflow (R95,
R170). -/
theorem State.BatchInv.candidate_lt (h : s.BatchInv) {e : Nat} (he : e < s.evaluators.length) :
    (BitVec.ofNat 32 e).toNat = e ∧ s.startK.toNat + e < 2 ^ 64 := by
  have hmax : maxBatch = 2 ^ 32 - 1 := rfl
  have hfits := h.fits
  have hover := (noKOverflow_iff _ _).mp h.noOverflow
  refine ⟨?_, by omega⟩
  rw [BitVec.toNat_ofNat]
  exact Nat.mod_eq_of_lt (by omega)

/-- A populated slot of a complete batch holds a hit with its task-level digest (R126, R139). -/
theorem complete_read_populated (h : s.BatchInv) (hcomplete : s.complete = true) (hne : s.evaluators ≠ []) {slot : Nat}
    (hslot : slot < min (s.hits s.evaluators.length).length 10) :
    ∃ e ∈ s.hits s.evaluators.length, s.rb.read (1 + 9 * slot) = BitVec.ofNat 32 e ∧
      s.recoveredK slot = s.startK.toNat + e ∧
      ∀ j : Fin 8, s.rb.read (2 + 9 * slot + j.val) = (taskDigest (s.startK.toNat + e) s.diff.toNat)[j] := by
  obtain ⟨-, winners, hlen, -, hhits, hslots, -, -⟩ := complete_finalBuffer h hcomplete hne
  have hlt : slot < winners.length := by rwa [hlen, capacity_eq]
  have hmem := hhits _ (List.getElem_mem hlt)
  obtain ⟨hindex, hdigest⟩ := hslots slot _ (List.getElem?_eq_getElem hlt)
  generalize winners[slot] = e at hmem hindex hdigest
  have he : e < s.evaluators.length := List.mem_range.mp (List.mem_of_mem_filter hmem)
  obtain ⟨hnat, hk⟩ := h.candidate_lt he
  have hd2 := State.results_d2 (s := s) (index := BitVec.ofNat 32 e) (by rwa [hnat])
  rw [hnat] at hd2
  refine ⟨e, hmem, hindex, ?_, fun j => ?_⟩
  · show s.startK.toNat + (s.rb.read (1 + 9 * slot)).toNat = _
    rw [hindex, hnat]
  · rw [hdigest j, hd2]

/-- Settles O57: after completion a host read answers the word, and the words are those of the final buffer. -/
theorem hostReadsTheBufferAfterCompletion : Obligations.HostReadsTheBufferAfterCompletion := by
  intro s hcomplete
  have hread {a : Nat} (ha : a < 91) := hostRead_of_complete hcomplete ha
  refine ⟨fun _ => hread, fun _ => hostRead_above, fun h hne => ?_⟩
  obtain ⟨hcount, -⟩ := complete_finalBuffer h hcomplete hne
  refine ⟨s.rb.read 0, hread (by omega), hcount, fun slot hslot => ?_⟩
  rw [hcount] at hslot
  obtain ⟨e, hmem, hindex, hrecovered, hdigest⟩ := complete_read_populated h hcomplete hne hslot
  exact ⟨e, hmem, by rw [hread (by omega), hindex], hrecovered, fun j => by rw [hread (by omega), hdigest j]⟩

end Sys2Proof.Machine
end

section
/-! The command encoding (R61 to R66): the decoder and the encoder are inverse, byte by byte and over programs of any length, and
the bytes that decode are the well-formed ones. -/

namespace Sys2Proof.Machine

variable {c : Byte} {i : Instr}

/-- The list of operations lacks none (R60). -/
theorem mem_allOperations (i : Instr) : i ∈ allOperations := by
  cases i with
  | shaiv p => cases p <;> decide
  | shacmp p => cases p <;> decide
  | _ => decide

/-! ### The fields of a command byte -/

/-- The three fields of a command byte hold all of its bits (R61). -/
theorem joinCommand_splitCommand (c : Byte) : joinCommand (splitCommand c) = c := by
  have hhigh : c.extractLsb' 4 4 ++ c.extractLsb' 1 3 = c.extractLsb' 1 7 :=
    BitVec.extractLsb'_append_extractLsb'_eq_extractLsb' rfl
  have hall : c.extractLsb' 1 7 ++ c.extractLsb' 0 1 = c.extractLsb' 0 8 :=
    BitVec.extractLsb'_append_extractLsb'_eq_extractLsb' rfl
  calc joinCommand (splitCommand c) = c.extractLsb' 4 4 ++ c.extractLsb' 1 3 ++ c.extractLsb' 0 1 := rfl
    _ = c.extractLsb' 0 8 := by rw [hhigh]; exact hall
    _ = c := BitVec.extractLsb'_eq_self

/-- The bit of the pass that a bit names is that bit (R63). -/
theorem bit_passOf (p : BitVec 1) : (passOf p).bit = p := by
  revert p
  decide

/-- An operation that takes no operand is read from its own `op` code (R62). -/
theorem decodeOp_ok {op : BitVec 4} (h : decodeOp op = .ok i) : i.op = op ∧ i.passBit = 0 := by
  unfold decodeOp at h
  split at h <;> cases h
  all_goals exact ⟨BitVec.eq_of_toNat_eq (Eq.symm ‹_›), rfl⟩

/-- Every code from 1 to 12 but those of `SHAIV` and `SHACMP` is that of an operation without operand (R62). -/
theorem exists_decodeOp {op : BitVec 4} (h : 1 ≤ op.toNat ∧ op.toNat ≤ 12) (h6 : op ≠ 6) (h7 : op ≠ 7) :
    ∃ i, decodeOp op = .ok i := by
  have h6 : op.toNat ≠ 6 := fun h => h6 (BitVec.eq_of_toNat_eq h)
  have h7 : op.toNat ≠ 7 := fun h => h7 (BitVec.eq_of_toNat_eq h)
  unfold decodeOp
  split
  case h_11 => simp only [imp_false] at *; omega
  all_goals exact ⟨_, rfl⟩

/-- A byte that decodes has the fields of the operation: its code, `000`, and its operand or 0 (R61, R66). -/
theorem splitCommand_of_decode (h : decode c = .ok i) : splitCommand c = ⟨i.op, 0, i.passBit⟩ := by
  simp only [decode] at h
  generalize splitCommand c = f at h ⊢
  obtain ⟨op, rsv, p⟩ := f
  dsimp only at h
  split_ifs at h with hrsv h6 h7 hp <;> obtain rfl := not_not.mp hrsv
  · cases h
    rw [h6, Instr.passBit, bit_passOf, Instr.op]
  · cases h
    rw [h7, Instr.passBit, bit_passOf, Instr.op]
  · obtain ⟨hop, hbit⟩ := decodeOp_ok h
    rw [hop, hbit, not_not.mp hp]

/-- A well-formed byte decodes (R65). -/
theorem exists_decode_of_wellFormed (h : (splitCommand c).wellFormed = true) : ∃ i, decode c = .ok i := by
  simp only [Command.wellFormed, Command.opNamed, Command.rsvClear, Command.passAllowed, Bool.and_eq_true, Bool.or_eq_true,
    decide_eq_true_eq, beq_iff_eq] at h
  obtain ⟨⟨hop, hrsv⟩, hpass⟩ := h
  simp only [decode, hrsv, ne_eq, not_true, if_false]
  split_ifs with h6 h7 hp
  · exact ⟨_, rfl⟩
  · exact ⟨_, rfl⟩
  · exact exists_decodeOp hop h6 h7
  · exact absurd hpass (not_or.mpr ⟨not_or.mpr ⟨hp, h6⟩, h7⟩)

/-! ### One command byte -/

/-- What the model proves of each operation holds of all of them. -/
theorem encodingStatement (i : Instr) : Laws.Encoding.Statement i := by
  cases i with
  | kgen => exact Laws.Encoding.kgen
  | cube => exact Laws.Encoding.cube
  | siglen => exact Laws.Encoding.siglen
  | pack1 => exact Laws.Encoding.pack1
  | pack2 => exact Laws.Encoding.pack2
  | shaiv p => exact Laws.Encoding.shaiv p
  | shacmp p => exact Laws.Encoding.shacmp p
  | lzn => exact Laws.Encoding.lzn
  | qual => exact Laws.Encoding.qual
  | claim => exact Laws.Encoding.claim
  | record => exact Laws.Encoding.record
  | done => exact Laws.Encoding.done

/-- A byte decodes to an operation iff it is its command word (R66). -/
theorem decode_eq_ok_iff : decode c = .ok i ↔ encode i = c := by
  obtain ⟨-, -, hdecode⟩ := encodingStatement i
  refine ⟨fun h => ?_, fun h => h ▸ hdecode⟩
  rw [← joinCommand_splitCommand c, splitCommand_of_decode h, encode]

@[simp] theorem decode_encode (i : Instr) : decode (encode i) = .ok i := decode_eq_ok_iff.mpr rfl

/-- A byte is well-formed iff it is the command word of an operation (R65). -/
theorem wellFormed_iff : (splitCommand c).wellFormed = true ↔ ∃ i, encode i = c := by
  constructor
  · intro h
    obtain ⟨i, hi⟩ := exists_decode_of_wellFormed h
    exact ⟨i, decode_eq_ok_iff.mp hi⟩
  · rintro ⟨i, rfl⟩
    obtain ⟨-, hwf, -⟩ := encodingStatement i
    exact hwf

/-- The table holds each operation with its command word, and nothing else (R62). -/
theorem mem_commandTable : (c, i) ∈ commandTable ↔ encode i = c := by
  have hsound : ∀ row ∈ commandTable, encode row.2 = row.1 := by decide
  have hcomplete : ∀ i ∈ allOperations, (encode i, i) ∈ commandTable := by decide
  exact ⟨hsound (c, i), fun h => h ▸ hcomplete i (mem_allOperations i)⟩

/-- Settles O1: each byte decodes to the operation whose command word it is, and the table lists those. -/
theorem decoderReadsTheTable : Obligations.DecoderReadsTheTable :=
  ⟨fun _ _ => decode_eq_ok_iff.trans mem_commandTable.symm, decode_encode, fun _ _ => decode_eq_ok_iff.mp⟩

/-- A byte is in the first column of the table iff it is the command word of an operation (R65). -/
theorem mem_commandBytes : c ∈ commandTable.map Prod.fst ↔ ∃ i, encode i = c := by
  simp [mem_commandTable]

/-- A byte that is the command word of no operation is rejected, and issuing it is refused in every state (R65). -/
theorem reserved_of_not_encode (h : ¬ ∃ i, encode i = c) :
    (∃ r, decode c = .error r) ∧ ∀ s, issue c s = .refused (.reservedCommand c) := by
  cases hd : decode c with
  | ok i => exact absurd ⟨i, decode_eq_ok_iff.mp hd⟩ h
  | error r => exact ⟨⟨r, rfl⟩, fun s => by simp [issue, hd]⟩

/-- Settles O2: the fourteen bytes are the first column of the table, hence the command words of the operations. -/
theorem reservedBytesAreRefused : Obligations.ReservedBytesAreRefused := by
  refine ⟨fun c => ?_, fun upc => ?_⟩
  · split
    · next hmem =>
      obtain ⟨i, hi⟩ := mem_commandBytes.mp hmem
      have hd : decode c = .ok i := decode_eq_ok_iff.mpr hi
      exact ⟨wellFormed_iff.mpr ⟨i, hi⟩, i, hd, issue_ok hd⟩
    · next hmem =>
      have hnone : ¬ ∃ i, encode i = c := fun h => hmem (mem_commandBytes.mpr h)
      exact ⟨Bool.eq_false_iff.mpr fun h => hnone (wellFormed_iff.mp h), reserved_of_not_encode hnone⟩
  · obtain ⟨i, rfl⟩ := exists_positionOf upc
    exact wellFormed_iff.mpr ⟨i, decode_eq_ok_iff.mp (decode_commandAt i)⟩

/-! ### Programs -/

/-- A program decodes iff its first byte and the rest of it do (R61). -/
theorem decodeAll_cons_eq_ok_iff {cs : List Byte} {is : List Instr} :
    decodeAll (c :: cs) = .ok is ↔ ∃ i js, decode c = .ok i ∧ decodeAll cs = .ok js ∧ is = i :: js := by
  cases hc : decode c <;> cases hcs : decodeAll cs <;> simp [decodeAll, hc, hcs, eq_comm]

@[simp] theorem decodeAll_encodeAll (is : List Instr) : decodeAll (encodeAll is) = .ok is := by
  induction is with
  | nil => rfl
  | cons i is ih => exact decodeAll_cons_eq_ok_iff.mpr ⟨i, is, decode_encode i, ih, rfl⟩

theorem encodeAll_of_decodeAll {bs : List Byte} {is : List Instr} (h : decodeAll bs = .ok is) : encodeAll is = bs := by
  induction bs generalizing is with
  | nil => cases h; rfl
  | cons c cs ih =>
    obtain ⟨i, js, hi, hjs, rfl⟩ := decodeAll_cons_eq_ok_iff.mp h
    exact congrArg₂ List.cons (decode_eq_ok_iff.mp hi) (ih hjs)

/-- Settles O3, by induction over the operations of the program and over its bytes. -/
theorem programsSurviveEncoding : Obligations.ProgramsSurviveEncoding :=
  ⟨decodeAll_encodeAll, fun _ _ => encodeAll_of_decodeAll⟩

/-- The hardwired sequence is the encoding of `EVAL` with `Q = 1` (R68, R69). -/
theorem encodeAll_eval_true : encodeAll (eval true) = sequenceRom := by decide

/-- Settles O4: the sequence is the encoding of `EVAL`, so it decodes to it. -/
theorem sequenceIsTheTable : Obligations.SequenceIsTheTable :=
  ⟨rfl, decode_commandAt, encodeAll_eval_true ▸ decodeAll_encodeAll _⟩

end Sys2Proof.Machine
end

section
/-! The textual form of an operation is read back, whatever spaces stand around it and whatever comment after it (R67). -/

namespace Sys2Proof.Machine

/-- Text with no comment in it and no space around it. -/
def Stripped (text : List Char) : Prop :=
  text ≠ [] ∧ ';' ∉ text ∧ text.head? ≠ some ' ' ∧ text.getLast? ≠ some ' '

/-- The text of an operation has no space around it and no `;` (R67). -/
theorem stripped_textOf (i : Instr) : Stripped (textOf i) := by
  have h : ∀ i ∈ allOperations, Stripped (textOf i) := by
    unfold Stripped
    decide
  exact h i (mem_allOperations i)

/-- The text of an operation names that operation: no two share a text (R67). -/
theorem parseLine_of_stripLine {line : List Char} {i : Instr} (h : stripLine line = textOf i) : parseLine line = some i := by
  have hfind : ∀ i ∈ allOperations, allOperations.find? (fun j => textOf j = textOf i) = some i := by decide
  rw [parseLine, h]
  exact hfind i (mem_allOperations i)

/-- Skipping leading spaces stops where the text begins. -/
theorem dropWhile_spaces (n : Nat) {text : List Char} (h : text.head? ≠ some ' ') :
    (List.replicate n ' ' ++ text).dropWhile (fun ch => ch = ' ') = text := by
  rw [List.dropWhile_append_of_pos (by simp)]
  cases text with
  | nil => rfl
  | cons ch text => exact List.dropWhile_cons_of_neg (by simpa using h)

/-- Characters other than `;` are no comment. -/
theorem takeWhile_no_comment {text : List Char} (h : ';' ∉ text) (rest : List Char) :
    (text ++ rest).takeWhile (fun ch => ch ≠ ';') = text ++ rest.takeWhile fun ch => ch ≠ ';' :=
  List.takeWhile_append_of_pos fun _ hch => decide_eq_true fun heq => h (heq ▸ hch)

/-- Stripping leaves the text of a line whose rest is spaces around it and a comment after it, if any (R67). -/
theorem stripLine_spaces {text : List Char} (h : Stripped text) (n m : Nat) {rest : List Char}
    (hrest : rest.takeWhile (fun ch => ch ≠ ';') = []) :
    stripLine (List.replicate n ' ' ++ text ++ List.replicate m ' ' ++ rest) = text := by
  obtain ⟨hne, hcomment, hhead, hlast⟩ := h
  have hline : ';' ∉ List.replicate n ' ' ++ text ++ List.replicate m ' ' := by simp [hcomment]
  have hleft : (text ++ List.replicate m ' ').head? ≠ some ' ' := by rwa [List.head?_append_of_ne_nil _ hne]
  have hright : text.reverse.head? ≠ some ' ' := by rwa [List.head?_reverse]
  rw [stripLine, takeWhile_no_comment hline, hrest, List.append_nil, List.append_assoc, dropWhile_spaces n hleft,
    List.reverse_append, List.reverse_replicate, dropWhile_spaces m hright, List.reverse_reverse]

/-- Settles O5: stripping leaves the text of the operation, which names it. -/
theorem textIsReadBack : Obligations.TextIsReadBack := by
  intro i n m comment
  have hparse {rest : List Char} (hrest : rest.takeWhile (fun ch => ch ≠ ';') = []) :=
    parseLine_of_stripLine (stripLine_spaces (stripped_textOf i) n m hrest)
  constructor
  · rw [← List.append_nil (_ ++ List.replicate m ' ')]
    exact hparse rfl
  · rw [List.append_assoc _ [';'] comment]
    exact hparse rfl

end Sys2Proof.Machine
end

section
/-! The compression function follows the standard (R77, R79 to R86): the rotations, the block read as words, the schedule read
oldest word first, and the working variables round by round. -/

namespace Sys2Proof.Machine

/-! ### The bit functions -/

/-- The rotation of R8 is the library's. -/
theorem rotr32_eq (x : Word) {n : Nat} (h : n < 32) : rotr32 x n = x.rotateRight n := by
  rw [BitVec.rotateRight_def, Nat.mod_eq_of_lt h, rotr32]

theorem bsig0_eq (x : Word) : bsig0 x = x.rotateRight 2 ^^^ x.rotateRight 13 ^^^ x.rotateRight 22 := by
  rw [bsig0, rotr32_eq x (by decide), rotr32_eq x (by decide), rotr32_eq x (by decide)]

theorem bsig1_eq (x : Word) : bsig1 x = x.rotateRight 6 ^^^ x.rotateRight 11 ^^^ x.rotateRight 25 := by
  rw [bsig1, rotr32_eq x (by decide), rotr32_eq x (by decide), rotr32_eq x (by decide)]

theorem ssig0_eq (x : Word) : ssig0 x = x.rotateRight 7 ^^^ x.rotateRight 18 ^^^ x >>> 3 := by
  rw [ssig0, rotr32_eq x (by decide), rotr32_eq x (by decide), shr32]

theorem ssig1_eq (x : Word) : ssig1 x = x.rotateRight 17 ^^^ x.rotateRight 19 ^^^ x >>> 10 := by
  rw [ssig1, rotr32_eq x (by decide), rotr32_eq x (by decide), shr32]

/-! ### The block as words -/

theorem toNat_append_byte {n : Nat} (x : BitVec n) (b : Byte) : (x ++ b).toNat = x.toNat * 2 ^ 8 + b.toNat := by
  rw [BitVec.toNat_append, ← Nat.shiftLeft_add_eq_or_of_lt b.isLt, Nat.shiftLeft_eq]

/-- A word is the number that its four bytes write, most significant first (R44). -/
theorem wordBe_toNat (b0 b1 b2 b3 : Byte) :
    (wordBe b0 b1 b2 b3).toNat = b0.toNat * 2 ^ 24 + b1.toNat * 2 ^ 16 + b2.toNat * 2 ^ 8 + b3.toNat := by
  rw [wordBe, toNat_append_byte, toNat_append_byte, toNat_append_byte]
  omega

theorem length_parseWords (bs : List Byte) : (parseWords bs).length = bs.length / 4 := by
  induction bs using parseWords.induct with
  | case1 b0 b1 b2 b3 rest ih => simp only [parseWords, List.length_cons, ih]; omega
  | case2 bs h =>
    match bs, h with
    | [], _ | [_], _ | [_, _], _ | [_, _, _], _ => simp [parseWords]
    | b0 :: b1 :: b2 :: b3 :: rest, h => exact absurd rfl (h b0 b1 b2 b3 rest)

/-- Word `t` is read from the bytes at `4t .. 4t+3` (R77). -/
theorem getD_parseWords {bs : List Byte} {t : Nat} (h : t < (parseWords bs).length) :
    (parseWords bs).getD t 0 =
      wordBe (bs.getD (4 * t) 0) (bs.getD (4 * t + 1) 0) (bs.getD (4 * t + 2) 0) (bs.getD (4 * t + 3) 0) := by
  induction bs using parseWords.induct generalizing t with
  | case1 b0 b1 b2 b3 rest ih =>
    cases t with
    | zero => rfl
    | succ t => exact ih (Nat.lt_of_succ_lt_succ h)
  | case2 bs hshort => simp [parseWords] at h

/-! ### The schedule -/

@[simp] theorem length_expandSchedule (n : Nat) (w : List Word) : (expandSchedule n w).length = n + w.length := by
  induction n generalizing w with
  | zero => simp [expandSchedule]
  | succ n ih => simp only [expandSchedule, ih, List.length_cons]; omega

theorem expandSchedule_add (j k : Nat) (w : List Word) :
    expandSchedule (j + k) w = expandSchedule j (expandSchedule k w) := by
  induction k generalizing w with
  | zero => rfl
  | succ k ih => exact ih _

/-- One more word is the next of those so far (R82). -/
theorem expandSchedule_succ (k : Nat) (w : List Word) :
    expandSchedule (k + 1) w = nextScheduleWord (expandSchedule k w) :: expandSchedule k w := by
  rw [Nat.add_comm, expandSchedule_add]
  rfl

/-- The words there were stand behind the newer ones. -/
theorem getD_expandSchedule (n i : Nat) (w : List Word) : (expandSchedule n w).getD (n + i) 0 = w.getD i 0 := by
  induction n generalizing w i with
  | zero => rw [Nat.zero_add, expandSchedule]
  | succ n ih =>
    rw [Nat.add_assoc, Nat.add_comm 1 i, expandSchedule, ih]
    rfl

theorem length_messageWords (m : Block) : (parseWords m.toList).length = 16 := by
  rw [length_parseWords, Vector.length_toList]

theorem length_messageSchedule (m : Block) : (messageSchedule m).length = 64 := by
  simp [messageSchedule, length_messageWords]

/-- Word `W[t]` of the schedule of a block (R82). -/
def scheduleWord (m : Block) (t : Nat) : Word := (messageSchedule m).getD t 0

/-- The words of the schedule of a block when `k` are computed, newest first. -/
def scheduleSoFar (m : Block) (k : Nat) : List Word := expandSchedule k (parseWords m.toList).reverse

/-- Where `16 + k` words are there, word `W[t]` is the one at place `15 + k - t` from the newest. -/
theorem scheduleWord_eq_getD (m : Block) {k t : Nat} (hk : k ≤ 48) (ht : t < 16 + k) :
    scheduleWord m t = (scheduleSoFar m k).getD (15 + k - t) 0 := by
  have hlen : (scheduleSoFar m 48).length = 64 := by simp [scheduleSoFar, length_messageWords]
  have hsplit : scheduleSoFar m 48 = expandSchedule (48 - k) (scheduleSoFar m k) := by
    rw [scheduleSoFar, scheduleSoFar, ← expandSchedule_add, Nat.sub_add_cancel hk]
  calc scheduleWord m t = (scheduleSoFar m 48).reverse.getD t 0 := rfl
    _ = (scheduleSoFar m 48).getD (48 - k + (15 + k - t)) 0 := by
      rw [List.getD_reverse t (by omega), hlen]
      congr 1
      omega
    _ = (scheduleSoFar m k).getD (15 + k - t) 0 := by rw [hsplit, getD_expandSchedule]

/-- The first sixteen words are the block's (R77). -/
theorem scheduleWord_of_lt (m : Block) {t : Nat} (h : t < 16) :
    scheduleWord m t = wordBe m[4 * t] m[4 * t + 1] m[4 * t + 2] m[4 * t + 3] := by
  have hlen := length_messageWords m
  have hbyte {i : Nat} (hi : i < 64) : m.toList.getD i 0 = m[i] := by
    rw [List.getD_eq_getElem _ _ (by simpa using hi), Vector.getElem_toList]
  calc scheduleWord m t = (parseWords m.toList).reverse.getD (15 - t) 0 := scheduleWord_eq_getD m (Nat.zero_le 48) h
    _ = (parseWords m.toList).getD t 0 := by
      rw [List.getD_reverse _ (by omega), hlen]
      congr 1
      omega
    _ = wordBe m[4 * t] m[4 * t + 1] m[4 * t + 2] m[4 * t + 3] := by
      rw [getD_parseWords (by omega), hbyte, hbyte, hbyte, hbyte]

/-- The recurrence of R82. -/
theorem scheduleWord_of_ge (m : Block) {t : Nat} (h : 16 ≤ t) (h' : t < 64) :
    scheduleWord m t = ssig1 (scheduleWord m (t - 2)) + scheduleWord m (t - 7) + ssig0 (scheduleWord m (t - 15)) +
      scheduleWord m (t - 16) := by
  obtain ⟨k, rfl⟩ := Nat.exists_eq_add_of_le h
  have hprev {i : Nat} (hi : i < 16) : scheduleWord m (16 + k - (i + 1)) = (scheduleSoFar m k).getD i 0 := by
    rw [scheduleWord_eq_getD m (k := k) (by omega) (by omega)]
    congr 1
    omega
  calc scheduleWord m (16 + k) = (scheduleSoFar m (k + 1)).getD (15 + (k + 1) - (16 + k)) 0 :=
        scheduleWord_eq_getD m (by omega) (by omega)
    _ = nextScheduleWord (scheduleSoFar m k) := by
      rw [scheduleSoFar, expandSchedule_succ, show 15 + (k + 1) - (16 + k) = 0 by omega]
      rfl
    _ = _ := by
      rw [nextScheduleWord, hprev (i := 1) (by decide), hprev (i := 6) (by decide), hprev (i := 14) (by decide),
        hprev (i := 15) (by decide)]

/-! ### The rounds -/

theorem length_roundConstants : roundConstants.length = 64 := rfl

/-- There are a constant and a schedule word for each of the 64 rounds. -/
theorem length_roundInputs (m : Block) : (roundConstants.zip (messageSchedule m)).length = 64 := by
  rw [List.length_zip, length_roundConstants, length_messageSchedule, Nat.min_self]

/-- The working variables before round `t` (R83, R84). -/
def workingAt (hin : Digest) (m : Block) (t : Nat) : Working :=
  ((roundConstants.zip (messageSchedule m)).take t).foldl sha256Round (Working.ofDigest hin)

/-- Round `t` takes the constant `K[t]` and the schedule word `W[t]` (R84). -/
theorem workingAt_succ (hin : Digest) (m : Block) {t : Nat} (h : t < 64) :
    workingAt hin m (t + 1) = sha256Round (workingAt hin m t) (roundConstants.getD t 0, scheduleWord m t) := by
  have hk : t < roundConstants.length := h
  have hw : t < (messageSchedule m).length := by rwa [length_messageSchedule]
  have hzip : t < (roundConstants.zip (messageSchedule m)).length := by rwa [length_roundInputs]
  rw [workingAt, List.take_succ_eq_append_getElem hzip, List.foldl_concat, List.getElem_zip, scheduleWord,
    List.getD_eq_getElem _ _ hk, List.getD_eq_getElem _ _ hw, workingAt]

/-- The variables after the last round are what the feedback adds (R84, R85). -/
theorem sha256Rounds_eq_workingAt (hin : Digest) (m : Block) :
    sha256Rounds (Working.ofDigest hin) (messageSchedule m) = workingAt hin m 64 := by
  rw [workingAt, List.take_of_length_le (length_roundInputs m).le, sha256Rounds]

/-- Settles O22: the words are the schedule's, the working variables those before each round. -/
theorem compressionFollowsTheStandard : Obligations.CompressionFollowsTheStandard := by
  intro hin m
  refine ⟨scheduleWord m, workingAt hin m, fun t h => ?_, fun t h h' => ?_, rfl, fun t h => ?_, ?_⟩
  · rw [scheduleWord_of_lt m h, wordBe_toNat]
  · rw [scheduleWord_of_ge m h h', ssig0_eq, ssig1_eq]
  · rw [workingAt_succ hin m h, sha256Round, bsig0_eq, bsig1_eq]
    rfl
  · rw [compress, sha256Rounds_eq_workingAt]
    rfl

end Sys2Proof.Machine
end

section
/-! The constants of the compression are those of the primes (R76, R78). -/

namespace Sys2Proof.Machine

/-- The primes the constants of R76 and R78 come from. -/
def constantPrimes : List Nat :=
  [2, 3, 5, 7, 11, 13, 17, 19, 23, 29, 31, 37, 41, 43, 47, 53, 59, 61, 67, 71, 73, 79, 83, 89, 97, 101, 103, 107, 109, 113, 127,
   131, 137, 139, 149, 151, 157, 163, 167, 173, 179, 181, 191, 193, 197, 199, 211, 223, 227, 229, 233, 239, 241, 251, 257, 263,
   269, 271, 277, 281, 283, 293, 307, 311]

/-- They are all the primes below 312, by trial division. -/
theorem filter_prime_range :
    ((List.range 312).filter fun p => 2 ≤ p && (List.range p).all fun d => d < 2 || p % d != 0) = constantPrimes := by
  decide +kernel

/-- A word under some whole part whose square is next below a number holds the fractional bits of its root. -/
theorem toNat_eq_sqrt_mod {w : Word} {n whole : Nat} (hle : (whole * 2 ^ 32 + w.toNat) ^ 2 ≤ n)
    (hlt : n < (whole * 2 ^ 32 + w.toNat + 1) ^ 2) : w.toNat = Nat.sqrt n % 2 ^ 32 := by
  have hroot : whole * 2 ^ 32 + w.toNat = Nat.sqrt n := Nat.eq_sqrt'.mpr ⟨hle, hlt⟩
  rw [← hroot, Nat.mul_add_mod_self_right, Nat.mod_eq_of_lt w.isLt]

/-- Each word of `IV`, with the whole part of the root before it, is the largest whose square is not above its prime (R76). -/
theorem iv_between_squares : ∀ i : Fin 8, ∃ whole : Fin 5,
    (whole.val * 2 ^ 32 + iv[i].toNat) ^ 2 ≤ constantPrimes.getD i.val 0 * 2 ^ 64 ∧
    constantPrimes.getD i.val 0 * 2 ^ 64 < (whole.val * 2 ^ 32 + iv[i].toNat + 1) ^ 2 := by
  decide +kernel

/-- Each round constant, with the whole part of the root before it, is the largest whose cube is not above its prime (R78). -/
theorem roundConstants_between_cubes : ∀ t : Fin 64, ∃ whole : Fin 8,
    (whole.val * 2 ^ 32 + (roundConstants.getD t.val 0).toNat) ^ 3 ≤ constantPrimes.getD t.val 0 * 2 ^ 96 ∧
    constantPrimes.getD t.val 0 * 2 ^ 96 < (whole.val * 2 ^ 32 + (roundConstants.getD t.val 0).toNat + 1) ^ 3 := by
  decide +kernel

/-- Settles O21: the bounds that make each constant a floor, evaluated at each prime. -/
theorem constantsComeFromPrimes : Obligations.ConstantsComeFromPrimes := by
  unfold Obligations.ConstantsComeFromPrimes
  rw [filter_prime_range]
  refine ⟨rfl, length_roundConstants, fun i => ?_, roundConstants_between_cubes⟩
  obtain ⟨whole, hle, hlt⟩ := iv_between_squares i
  exact toNat_eq_sqrt_mod hle hlt

end Sys2Proof.Machine
end

section
/-! `SHAIV` and `SHACMP` in both passes (R87, R88). -/

namespace Sys2Proof.Machine

variable {s : State} {e : Evaluator}

/-- Settles O23, by the rule of `SHAIV` in each pass. -/
theorem shaivLoadsTheVector : Obligations.ShaivLoadsTheVector :=
  ⟨decode_encode (.shaiv .first), decode_encode (.shaiv .second), fun _ _ h => ⟨exec_shaiv h .first, exec_shaiv h .second⟩⟩

/-- `SHACMP` faults where either operand holds `NOVAL` (R11, R88). -/
theorem exec_shacmp_noval (h : s.current = some e) {p : Pass} (hnoval : e.dsel p = .noval ∨ e.bsel p = .noval) :
    ∃ r, exec (.shacmp p) s = .fault (.readNoval r) := by
  cases hd : e.dsel p with
  | noval => exact ⟨_, exec_shacmp_noval_dsel h hd⟩
  | holds d =>
    have hb : e.bsel p = .noval := hnoval.resolve_left (by simp [hd])
    exact ⟨_, exec_shacmp_noval_bsel h hd hb⟩

/-- Settles O24, by the rules of `SHACMP` in each pass. -/
theorem shacmpCompressesInPlace : Obligations.ShacmpCompressesInPlace := by
  refine ⟨decode_encode (.shacmp .first), decode_encode (.shacmp .second), fun s e h => ⟨?_, ?_, ?_, ?_⟩⟩
  · exact fun _ _ hd hb => exec_shacmp h (p := .first) hd hb
  · exact fun _ _ hd hb => exec_shacmp h (p := .second) hd hb
  · exact exec_shacmp_noval h (p := .first)
  · exact exec_shacmp_noval h (p := .second)

end Sys2Proof.Machine
end

section
/-! The cube root modulo 2^109, by which the final addition of `CUBE` is bounded (R104). Where `P^3` is `-c` modulo 2^128 with
`c` at most 2040, the odd part of `P` is such a root of the odd part of `-c`, and the search finds no root that is small enough. -/

namespace Sys2Proof.Machine

/-- One round towards the powers of `x`: from the exponent `(64^n - 1) / 3` to the next. -/
def cubeRootStep (x y : Nat) : Nat := y ^ 64 * x ^ 21 % 2 ^ 109

/-- The inverse of the cube root of an odd `x` modulo 2^109: 18 rounds reach the exponent `(2^108 - 1) / 3`. -/
def invCubeRoot (x : Nat) : Nat := (cubeRootStep x)^[18] 1

/-- The cube root of `-c` modulo 2^109, for an odd `c`. -/
def cubeRootNeg (c : Nat) : Nat := invCubeRoot (2 ^ 109 - c) ^ 2 * (2 ^ 109 - c) % 2 ^ 109

section

variable {m x : Nat} (hx : m ^ 3 ≡ x [MOD 2 ^ 109])
include hx

/-- On the cube of `m`, the value after `n` rounds times `m` is `m` to the power `64^n`. -/
theorem mul_iterate_cubeRootStep (n : Nat) : m * (cubeRootStep x)^[n] 1 ≡ m ^ 64 ^ n [MOD 2 ^ 109] := by
  induction n with
  | zero => exact congrArg (· % 2 ^ 109) (by simp)
  | succ n ih =>
    rw [Function.iterate_succ_apply']
    generalize (cubeRootStep x)^[n] 1 = y at ih ⊢
    calc m * cubeRootStep x y
      _ ≡ m * (y ^ 64 * x ^ 21) [MOD 2 ^ 109] := (Nat.mod_modEq _ _).mul_left m
      _ ≡ m * (y ^ 64 * (m ^ 3) ^ 21) [MOD 2 ^ 109] := ((hx.symm.pow 21).mul_left _).mul_left m
      _ = (m * y) ^ 64 := by ring
      _ ≡ (m ^ 64 ^ n) ^ 64 [MOD 2 ^ 109] := ih.pow 64
      _ = m ^ 64 ^ (n + 1) := by rw [← pow_mul, ← pow_succ]

/-- On the cube of an odd `m` the rounds end at the inverse of `m`: 64^18 is 2^108, the totient of 2^109 (Euler). -/
theorem mul_invCubeRoot (hm : Odd m) : m * invCubeRoot x ≡ 1 [MOD 2 ^ 109] := by
  have htotient : Nat.totient (2 ^ 109) = 64 ^ 18 := by rw [Nat.totient_prime_pow_succ Nat.prime_two]; rfl
  have heuler : m ^ 64 ^ 18 ≡ 1 [MOD 2 ^ 109] :=
    htotient ▸ Nat.ModEq.pow_totient (hm.coprime_two_right.pow_right 109)
  exact (mul_iterate_cubeRootStep hx 18).trans heuler

/-- An odd number is its cube times the square of its inverse. -/
theorem modEq_invCubeRoot_sq_mul (hm : Odd m) : m ≡ invCubeRoot x ^ 2 * x [MOD 2 ^ 109] := by
  have hinv := mul_invCubeRoot hx hm
  generalize invCubeRoot x = y at hinv ⊢
  calc m
    _ = m * 1 ^ 2 := by ring
    _ ≡ m * (m * y) ^ 2 [MOD 2 ^ 109] := (hinv.symm.pow 2).mul_left m
    _ = y ^ 2 * m ^ 3 := by ring
    _ ≡ y ^ 2 * x [MOD 2 ^ 109] := hx.mul_left _

end

/-- An odd number whose cube is `-c` modulo 2^109 is the cube root of `-c` there. -/
theorem mod_eq_cubeRootNeg {m c : Nat} (hm : Odd m) (hc : c ≤ 2 ^ 109) (h : 2 ^ 109 ∣ m ^ 3 + c) :
    m % 2 ^ 109 = cubeRootNeg c := by
  have hx : m ^ 3 ≡ 2 ^ 109 - c [MOD 2 ^ 109] := by
    refine Nat.ModEq.add_right_cancel' c ?_
    rw [Nat.sub_add_cancel hc]
    exact (Nat.mod_eq_zero_of_dvd h).trans (Nat.mod_self _).symm
  exact modEq_invCubeRoot_sq_mul hx hm

/-- The search: no odd `c` up to 2040 has a cube root of `-c` below 2^96. -/
theorem two_pow_96_le_cubeRootNeg : ∀ c ∈ List.range 2041, c % 2 = 1 → 2 ^ 96 ≤ cubeRootNeg c := by
  decide +kernel

/-- An odd number whose cube is at most 2040 below a multiple of 2^109 is at least 2^96. -/
theorem two_pow_96_le_of_odd {m c : Nat} (hm : Odd m) (hc : c ≤ 2040) (h : 2 ^ 109 ∣ m ^ 3 + c) : 2 ^ 96 ≤ m := by
  have heven : Even (m ^ 3 + c) := even_iff_two_dvd.mpr ((dvd_pow_self 2 (by decide)).trans h)
  have hodd : Odd c := (Nat.even_add'.mp heven).mp hm.pow
  calc 2 ^ 96
    _ ≤ cubeRootNeg c := two_pow_96_le_cubeRootNeg c (List.mem_range.mpr (by omega)) (Nat.odd_iff.mp hodd)
    _ = m % 2 ^ 109 := (mod_eq_cubeRootNeg hm (by omega) h).symm
    _ ≤ m := Nat.mod_le _ _

/-- A number whose cube is at most 2040 below a multiple of 2^128 is at least 2^96: with `2^e` in it, `8^e` divides what is
missing, so that `e` is at most 3 and more than 109 bits are left for its odd part. -/
theorem two_pow_96_le_of_dvd {p c : Nat} (hpos : 0 < c) (hc : c ≤ 2040) (h : 2 ^ 128 ∣ p ^ 3 + c) : 2 ^ 96 ≤ p := by
  have hp : p ≠ 0 := by
    rintro rfl
    have := Nat.le_of_dvd (by omega) h
    omega
  obtain ⟨e, m, hm, rfl⟩ := Nat.exists_eq_two_pow_mul_odd hp
  have hdvd {i : Nat} (hi : i ≤ e) (hbits : 3 * i ≤ 128) : 2 ^ (3 * i) ∣ c := by
    have hcube : 2 ^ (3 * i) ∣ (2 ^ e * m) ^ 3 := by
      rw [Nat.mul_comm 3, pow_mul]
      exact pow_dvd_pow_of_dvd ((pow_dvd_pow 2 hi).mul_right m) 3
    exact (Nat.dvd_add_right hcube).mp ((pow_dvd_pow 2 hbits).trans h)
  have he : e ≤ 3 := by
    by_contra hlt
    have := Nat.le_of_dvd hpos (hdvd (i := 4) (by omega) (by omega))
    omega
  obtain ⟨d, rfl⟩ := hdvd le_rfl (by omega)
  have hodd : 2 ^ 109 ∣ m ^ 3 + d := by
    have hsum : (2 ^ e * m) ^ 3 + 2 ^ (3 * e) * d = 2 ^ (3 * e) * (m ^ 3 + d) := by ring
    have hbits : 2 ^ 128 = 2 ^ (3 * e) * 2 ^ (128 - 3 * e) := by rw [← pow_add]; congr 1; omega
    rw [hsum, hbits] at h
    exact (pow_dvd_pow 2 (by omega)).trans (Nat.dvd_of_mul_dvd_mul_left (by positivity) h)
  have hd : d ≤ 2040 := (Nat.le_mul_of_pos_left d (by positivity)).trans hc
  exact (two_pow_96_le_of_odd hm hd hodd).trans (Nat.le_mul_of_pos_left m (by positivity))

/-- Below 2^96 the cube modulo 2^128 leaves room for the addition of 2040 (R104). -/
theorem cube_mod_le {p : Nat} (hp : p < 2 ^ 96) : p ^ 3 % 2 ^ 128 ≤ 2 ^ 128 - 2041 := by
  by_contra hlt
  have hmod := Nat.mod_lt (p ^ 3) (Nat.two_pow_pos 128)
  have hdvd : 2 ^ 128 ∣ p ^ 3 + (2 ^ 128 - p ^ 3 % 2 ^ 128) := by omega
  exact hp.not_ge (two_pow_96_le_of_dvd (by omega) (by omega) hdvd)

end Sys2Proof.Machine
end

section
/-! The Nonce Cube Generator: `KGEN`, `CUBE`, `SIGLEN` (R95 to R104). -/

namespace Sys2Proof.Machine

variable {s : State} {e : Evaluator}

/-- Word `j` of the nonce is bits `127 - 32*j : 96 - 32*j` of its value (R98). -/
theorem splitNonce_getElem (v : Word128) (j : Fin 4) : (splitNonce v)[j] = v.extractLsb' (96 - 32 * j.val) 32 := by
  match j with
  | 0 => rfl
  | 1 => rfl
  | 2 => rfl
  | 3 => rfl

/-- Settles O13: each word of the nonce is its bits of the task's number. -/
theorem cubeComputesTheNonce : Obligations.CubeComputesTheNonce := by
  refine ⟨decode_encode .cube, fun s e k h hk => ⟨_, exec_cube h hk, fun j => ?_⟩⟩
  rw [cubeNonce, splitNonce_getElem, BitVec.extractLsb'_toNat, cubeValue_toNat, Nat.shiftRight_eq_div_pow]
  rfl

/-- The four words of a 128-bit value, put together again, are the value (R13). -/
theorem value_splitNonce (v : Word128) : Nonce.value (splitNonce v) = v := by
  have h64 : v.extractLsb' 96 32 ++ v.extractLsb' 64 32 = v.extractLsb' 64 64 :=
    BitVec.extractLsb'_append_extractLsb'_eq_extractLsb' rfl
  have h32 : v.extractLsb' 64 64 ++ v.extractLsb' 32 32 = v.extractLsb' 32 96 :=
    BitVec.extractLsb'_append_extractLsb'_eq_extractLsb' rfl
  have h0 : v.extractLsb' 32 96 ++ v.extractLsb' 0 32 = v.extractLsb' 0 128 :=
    BitVec.extractLsb'_append_extractLsb'_eq_extractLsb' rfl
  calc Nonce.value (splitNonce v)
    _ = v.extractLsb' 96 32 ++ v.extractLsb' 64 32 ++ v.extractLsb' 32 32 ++ v.extractLsb' 0 32 := rfl
    _ = v := by rw [h64, h32, h0, BitVec.extractLsb'_eq_self]

/-- The product of `CUBE` is below 2^96 (R98). -/
theorem product_lt (k : Word64) (diff : Word) : k.toNat * diff.toNat < 2 ^ 96 :=
  (Nat.mul_lt_mul'' k.isLt diff.isLt).trans_eq (pow_add 2 64 32).symm

/-- Settles O14: the cube leaves room for 2040, so that the modulus does nothing to the sum. -/
theorem finalAdditionNeverCarries : Obligations.FinalAdditionNeverCarries := by
  intro k diff
  have hle := cube_mod_le (product_lt k diff)
  refine ⟨hle, ?_⟩
  rw [cubeNonce, value_splitNonce, cubeValue_toNat, taskNonce, Nat.add_mod]
  exact Nat.mod_eq_of_lt (by omega)

/-- `CUBE` and `SIGLEN`, one after the other, leave the nonce of `k` and `DIFF` and its length (R98, R99, R143). -/
theorem issue_cube_siglen (h : s.current = some e) {k : Word64} (hk : e.k = .holds k) {x : Nonce}
    (hx : cubeNonce k s.diff = x) :
    issueAll [0x20, 0x30] s = .next (s.putCurrent { e with x := .holds x, l := .holds (significantLength x) }) := by
  have hcube := exec_cube h hk
  rw [hx] at hcube
  have hsiglen := exec_siglen (State.current_putCurrent h { e with x := .holds x }) rfl
  rw [State.putCurrent_putCurrent] at hsiglen
  exact (issueAll_cons (decode_encode .cube) hcube).trans (issueAll_cons (decode_encode .siglen) hsiglen)

/-- The nonce is that of the product of `k` and `DIFF` alone (R98, R103). -/
theorem cubeNonce_of_product {k : Word64} {diff : Word} {p : Nat} (h : k.toNat * diff.toNat = p) :
    cubeNonce k diff = splitNonce (BitVec.ofNat 128 (p ^ 3 + 2040)) := by
  refine congrArg splitNonce (BitVec.eq_of_toNat_eq ?_)
  rw [cubeValue_toNat, taskNonce, h, BitVec.toNat_ofNat]

/-- Settles O16: the product is 0 or 1, and its nonce and length are evaluated. -/
theorem zeroAndOneNonces : Obligations.ZeroAndOneNonces := by
  refine fun s e k h hk => ⟨fun hzero => ?_, fun hk1 hdiff1 => ?_⟩
  · have hproduct : k.toNat * s.diff.toNat = 0 := by
      rcases hzero with hzero | hzero <;> simp [hzero]
    exact issue_cube_siglen h hk (cubeNonce_of_product hproduct)
  · have hproduct : k.toNat * s.diff.toNat = 1 := by simp [hk1, hdiff1]
    exact issue_cube_siglen h hk (cubeNonce_of_product hproduct)

/-- A launch whose last index would overflow is refused (R165, R170). -/
theorem launch_kOverflow {n : Nat} (hfits : n ≤ maxBatch) (hover : noKOverflow s.startK n = false) :
    launch n s = .refused .launchKOverflow := by
  simp [launch, hfits, hover]

/-- Settles O11, by the rule of `KGEN` and the premise `NoKOverflow`. -/
theorem kgenFormsTheCandidate : Obligations.KgenFormsTheCandidate := by
  refine ⟨decode_encode .kgen, fun s e h hsum => ⟨_, exec_kgen h, candidate_toNat hsum⟩, fun n s hne hfits hover => ?_⟩
  have hfalse : noKOverflow s.startK n = false := by
    rw [← Bool.not_eq_true, noKOverflow_iff]
    omega
  exact ⟨_, launch_kOverflow hfits hfalse⟩

/-- The length `SIGLEN` finds, in bytes: that of the first word of three that is not zero (R99). -/
theorem significantLength_bytes (x : Nonce) :
    (significantLength x).bytes = if x[0] ≠ 0 then 16 else if x[1] ≠ 0 then 12 else if x[2] ≠ 0 then 8 else 4 := by
  simp only [significantLength]
  split_ifs <;> rfl

/-- Settles O15, by the rule of `SIGLEN`. -/
theorem siglenTestsWholeWords : Obligations.SiglenTestsWholeWords :=
  ⟨decode_encode .siglen, fun _ _ x h hx => ⟨_, exec_siglen h hx, significantLength_bytes x⟩⟩

end Sys2Proof.Machine
end

section
/-! `PACK1` and `PACK2` (R105 to R108): the bytes of the two blocks, from the padding that each of them is. -/

namespace Sys2Proof.Machine

/-- The nonce's sixteen bytes, word by word (R43). -/
theorem nonceBytes_eq (x : Nonce) : nonceBytes x = be32 x[0] ++ be32 x[1] ++ be32 x[2] ++ be32 x[3] := by
  simp [nonceBytes, bytesOf, congrArg Vector.toList x.eq_words]

/-- Settles O20, by the padding of either block. -/
theorem blocksAreStandardPadding : Obligations.BlocksAreStandardPadding :=
  ⟨fun x l => nonceBytes_eq x ▸ blockOne_eq_padBlock x l, blockTwo_eq_padBlock⟩

/-- The length field of a message of one block: only its last two bytes are ever written (R108). -/
theorem lowBytes_eight {v : Nat} (hv : v < 2 ^ 16) :
    lowBytes 8 v = List.replicate 6 0x00 ++ [BitVec.ofNat 8 (v / 256), BitVec.ofNat 8 v] := by
  refine List.ext_getElem (by simp) fun i hi hi' => ?_
  have hlt : i < 8 := by simpa using hi
  rw [List.getElem_eq_getD 0, getD_lowBytes_eight hv hlt]
  interval_cases i <;> rfl

/-- The bytes of a padded message: the zeros of the padding and those of the length field are one row. -/
theorem padBlock_toList {m : List Byte} (h : m.length ≤ 55) :
    (padBlock m).toList = m ++ [0x80] ++ List.replicate (61 - m.length) 0x00 ++
      [BitVec.ofNat 8 (8 * m.length / 256), BitVec.ofNat 8 (8 * m.length)] := by
  have hzeros : 61 - m.length = (55 - m.length) + 6 := by omega
  rw [padBlock, blockOf_list (by simp; omega), lowBytes_eight (by omega), hzeros, List.replicate_add]
  simp only [List.append_assoc]

/-- Settles O17: the block is the padding of the marker and the low bytes of the nonce. -/
theorem pack1BuildsBlockOne : Obligations.Pack1BuildsBlockOne := by
  refine ⟨decode_encode .pack1, fun s e x l h hx hl => ⟨_, exec_pack1 h hx hl, ?_⟩⟩
  have hle := l.bytes_le
  have hlen : (marker ++ (nonceBytes x).drop (16 - l.bytes)).length = 4 + l.bytes := by
    simp [length_nonceBytes, marker]; omega
  rw [blockOne_eq_padBlock, padBlock_toList (by omega), hlen, nonceBytes_eq]
  cases l <;> rfl

/-- The digest's 32 bytes, word by word (R43). -/
theorem Digest.bytes_eq (d : Digest) : Digest.bytes d =
    be32 d[0] ++ be32 d[1] ++ be32 d[2] ++ be32 d[3] ++ be32 d[4] ++ be32 d[5] ++ be32 d[6] ++ be32 d[7] := by
  simp [Digest.bytes, bytesOf, congrArg Vector.toList d.eq_words]

/-- Settles O19: the block is the padding of the 32 bytes of the digest. -/
theorem pack2BuildsBlockTwo : Obligations.Pack2BuildsBlockTwo := by
  refine ⟨decode_encode .pack2, fun s e d h hd => ⟨_, exec_pack2 h hd, ?_⟩⟩
  have hlen : (Digest.bytes d).length = 32 := by rw [Digest.bytes_eq]; rfl
  rw [blockTwo_eq_padBlock, padBlock_toList (by omega), hlen, Digest.bytes_eq]
  rfl

/-- The byte of a block at an offset is what it was made from. -/
theorem getElem_blockOf (f : Nat → Byte) {i : Nat} (h : i < 64) : (blockOf f)[i] = f i := Vector.getElem_ofFn h

/-- Settles O18, for each of the four lengths. -/
theorem blockOneLengthField : Obligations.BlockOneLengthField := by
  intro x l
  rw [blockOne, getElem_blockOf, getElem_blockOf]
  cases l <;> exact ⟨rfl, rfl⟩

end Sys2Proof.Machine
end

section
/-! `LZN` (R113): the count by words and nibbles is that of the digest written as 64 hexadecimal digits. Both are what the
digits of its number (`Nat.digits 16`, which has no leading zeros) leave of the width. -/

namespace Sys2Proof.Machine

/-- A number of at most `n + 1` hexadecimal digits has fewer iff its digit `n` is zero. -/
theorem digit_eq_zero_iff {v n : Nat} (hv : v < 16 ^ (n + 1)) : v / 16 ^ n % 16 = 0 ↔ v < 16 ^ n := by
  have hdiv : v / 16 ^ n < 16 := Nat.div_lt_of_lt_mul (by rwa [← pow_succ])
  rw [Nat.mod_eq_of_lt hdiv, Nat.div_eq_zero_iff_lt (by positivity)]

/-- A number with a digit other than zero at place `n`, and none above, has `n + 1` digits. -/
theorem length_digits_succ {v n : Nat} (hv : v < 16 ^ (n + 1)) (hn : 16 ^ n ≤ v) : (Nat.digits 16 v).length = n + 1 :=
  le_antisymm ((Nat.digits_length_le_iff (by decide) v).mpr hv) ((Nat.lt_digits_length_iff (by decide) v).mpr hn)

/-- Putting `k` places below a positive number gives it `k` more digits. -/
theorem length_digits_mul_add {w r k : Nat} (hw : 0 < w) (hr : r < 16 ^ k) :
    (Nat.digits 16 (w * 16 ^ k + r)).length = (Nat.digits 16 w).length + k := by
  have hle : (Nat.digits 16 r).length ≤ k := (Nat.digits_length_le_iff (by decide) r).mpr hr
  have happend :=
    Nat.digits_append_zeroes_append_digits (k := k - (Nat.digits 16 r).length) (n := r) (by decide : 1 < 16) hw
  rw [Nat.add_sub_cancel' hle, Nat.add_comm, Nat.mul_comm] at happend
  rw [← happend]
  simp only [List.length_append, List.length_replicate]
  omega

/-- Nibble `7 - n` of a word is digit `n` of its number, so in a word of at most `n + 1` digits it is zero iff there are
fewer. -/
theorem nib_eq_zero_iff {w : Word} {n : Nat} (hn : n < 8) (hw : w.toNat < 16 ^ (n + 1)) :
    nib w (7 - n) = 0 ↔ w.toNat < 16 ^ n := by
  have hplace : 28 - 4 * (7 - n) = 4 * n := by omega
  rw [← digit_eq_zero_iff hw, nib, hplace, ← BitVec.toNat_inj, BitVec.extractLsb'_toNat, Nat.shiftRight_eq_div_pow,
    pow_mul]
  rfl

/-- The zero nibbles at the top of the low `n` nibbles of a word, and the digits of the word. -/
theorem zeroNibbles_add_length_digits {w : Word} {n : Nat} (hn : n ≤ 8) (hw : w.toNat < 16 ^ n) :
    zeroNibbles w n (8 - n) + (Nat.digits 16 w.toNat).length = n := by
  induction n with
  | zero => simp_all [zeroNibbles]
  | succ n ih =>
    have hnib := nib_eq_zero_iff (by omega) hw
    have hnext : 7 - n + 1 = 8 - n := by omega
    simp only [zeroNibbles, Nat.add_sub_add_right 7 1 n, hnib, hnext]
    split
    · next hlt => have := ih (by omega) hlt; omega
    · next hge => rw [length_digits_succ hw (by omega), Nat.zero_add]

/-- The number a row of words makes, word 0 on top. -/
def wordsValue : List Word → Nat
  | [] => 0
  | w :: ws => w.toNat * 16 ^ (8 * ws.length) + wordsValue ws

theorem wordsValue_lt (ws : List Word) : wordsValue ws < 16 ^ (8 * ws.length) := by
  induction ws with
  | nil => simp [wordsValue]
  | cons w ws ih =>
    calc w.toNat * 16 ^ (8 * ws.length) + wordsValue ws
      _ < (w.toNat + 1) * 16 ^ (8 * ws.length) := by
        rw [add_one_mul]
        exact Nat.add_lt_add_left ih _
      _ ≤ 2 ^ 32 * 16 ^ (8 * ws.length) := Nat.mul_le_mul_right _ w.isLt
      _ = 16 ^ (8 * (w :: ws).length) := by
        rw [List.length_cons]
        ring

theorem foldl_eq_wordsValue (ws : List Word) (n : Nat) :
    ws.foldl (fun n w => n * 2 ^ 32 + w.toNat) n = n * 16 ^ (8 * ws.length) + wordsValue ws := by
  induction ws generalizing n with
  | nil => simp [wordsValue]
  | cons w ws ih =>
    rw [List.foldl_cons, ih, wordsValue, List.length_cons]
    ring

/-- The value of a digest is that of its words (R113). -/
theorem Digest.value_eq_wordsValue (d : Digest) : Digest.value d = wordsValue d.toList := by
  rw [Digest.value, foldl_eq_wordsValue, Nat.zero_mul, Nat.zero_add]

/-- The leading zero nibbles of a row of words, and the digits of its number. -/
theorem leadingZeros_add_length_digits (ws : List Word) :
    leadingZeros ws + (Nat.digits 16 (wordsValue ws)).length = 8 * ws.length := by
  induction ws with
  | nil => simp [leadingZeros, wordsValue]
  | cons w ws ih =>
    rw [leadingZeros, wordsValue, List.length_cons]
    split
    · next hw => simp [hw]; omega
    · next hw =>
      have hpos : 0 < w.toNat := by bv_omega
      have hword : zeroNibbles w 8 0 + (Nat.digits 16 w.toNat).length = 8 :=
        zeroNibbles_add_length_digits (le_refl 8) w.isLt
      rw [length_digits_mul_add hpos (wordsValue_lt ws)]
      omega

/-- The zeros before the first other digit of a number written in `m` digits, and its digits. -/
theorem length_takeWhile_add_length_digits {v m : Nat} (hv : v < 16 ^ m) :
    ((List.range m).takeWhile fun i => v / 16 ^ (m - 1 - i) % 16 == 0).length + (Nat.digits 16 v).length = m := by
  induction m with
  | zero => simp_all
  | succ m ih =>
    have hplace (i : Nat) : m + 1 - 1 - Nat.succ i = m - 1 - i := by omega
    rw [List.range_succ_eq_map, List.takeWhile_cons, List.takeWhile_map]
    simp only [Function.comp_def, hplace]
    simp only [Nat.add_sub_cancel, Nat.sub_zero, beq_iff_eq, digit_eq_zero_iff hv]
    split
    · next hlt =>
      have hrest := ih hlt
      rw [List.length_cons, List.length_map]
      omega
    · next hge => rw [length_digits_succ hv (by omega), List.length_nil, Nat.zero_add]

/-- What `LZN` counts is the number of leading zero digits of the digest (R113, R134). -/
theorem digestZeros_eq_taskZeros (d : Digest) : (digestZeros d).val = taskZeros d := by
  have hwords : leadingZeros d.toList + (Nat.digits 16 (wordsValue d.toList)).length = 64 :=
    (leadingZeros_add_length_digits d.toList).trans (by simp)
  have hlt : wordsValue d.toList < 16 ^ 64 := by simpa using wordsValue_lt d.toList
  have hnumber := length_takeWhile_add_length_digits hlt
  rw [taskZeros, Digest.value_eq_wordsValue]
  exact Nat.add_right_cancel (hwords.trans hnumber.symm)

end Sys2Proof.Machine
end

section
/-! Operations 0 to 10 of the sequence, issued one after another, refine the task level (R110, R134). -/

namespace Sys2Proof.Machine

variable {s : State} {e : Evaluator}

/-- An operation of a unit program that leaves evaluator `w` in place of `v` goes on with `w` (R143). -/
theorem issueAll_cons_putCurrent {v w : Evaluator} {c : Byte} {i : Instr} {cs : List Byte} (hi : decode c = .ok i)
    (hexec : exec i (s.putCurrent v) = .next ((s.putCurrent v).putCurrent w)) :
    issueAll (c :: cs) (s.putCurrent v) = issueAll cs (s.putCurrent w) := by
  rw [issueAll_cons hi hexec, State.putCurrent_putCurrent]

/-- Operations 0 to 10 leave the results in their registers, whatever these held (R130). -/
theorem issueAll_private (h : s.current = some e) :
    issueAll [0x10, 0x20, 0x30, 0x40, 0x60, 0x70, 0x50, 0x61, 0x71, 0x80, 0x90] s =
      .next (s.putCurrent { e with
        k := .holds (s.results e.index).k, x := .holds (s.results e.index).x, l := .holds (s.results e.index).l,
        b1 := .holds (s.results e.index).b1, d1 := .holds (s.results e.index).d1, b2 := .holds (s.results e.index).b2,
        d2 := .holds (s.results e.index).d2, z := .holds (s.results e.index).z, q := .holds (s.results e.index).q }) := by
  have hcur := State.current_putCurrent h
  refine (issueAll_cons (decode_encode .kgen) (exec_kgen h)).trans ?_
  refine (issueAll_cons_putCurrent (decode_encode .cube) (exec_cube (hcur _) rfl)).trans ?_
  refine (issueAll_cons_putCurrent (decode_encode .siglen) (exec_siglen (hcur _) rfl)).trans ?_
  refine (issueAll_cons_putCurrent (decode_encode .pack1) (exec_pack1 (hcur _) rfl rfl)).trans ?_
  refine (issueAll_cons_putCurrent (decode_encode (.shaiv .first)) (exec_shaiv (hcur _) _)).trans ?_
  refine (issueAll_cons_putCurrent (decode_encode (.shacmp .first)) (exec_shacmp (hcur _) rfl rfl)).trans ?_
  refine (issueAll_cons_putCurrent (decode_encode .pack2) (exec_pack2 (hcur _) rfl)).trans ?_
  refine (issueAll_cons_putCurrent (decode_encode (.shaiv .second)) (exec_shaiv (hcur _) _)).trans ?_
  refine (issueAll_cons_putCurrent (decode_encode (.shacmp .second)) (exec_shacmp (hcur _) rfl rfl)).trans ?_
  refine (issueAll_cons_putCurrent (decode_encode .lzn) (exec_lzn (hcur _) rfl)).trans ?_
  exact issueAll_cons_putCurrent (decode_encode .qual) (exec_qual (hcur _) rfl)

/-- Settles O54: the run, then each result by its rule. -/
theorem operationsRefineTheTask : Obligations.OperationsRefineTheTask := by
  intro s index hsum k r
  have hk : r.k.toNat = k := candidate_toNat hsum
  have hnonce : (cubeValue r.k s.diff).toNat = taskNonce k s.diff.toNat := by rw [cubeValue_toNat, hk]
  have hx : (Nonce.value r.x).toNat = taskNonce k s.diff.toNat :=
    (congrArg BitVec.toNat (value_splitNonce _)).trans hnonce
  have hl : r.l.bytes = taskLength (taskNonce k s.diff.toNat) := by
    rw [← hnonce]
    exact significantLength_splitNonce _
  have hd2 : r.d2 = taskDigest k s.diff.toNat := State.results_d2 hsum
  have hz : r.z.val = taskZeros (taskDigest k s.diff.toNat) := by
    rw [← hd2]
    exact digestZeros_eq_taskZeros r.d2
  have hq : r.q = taskQualifies k s.diff.toNat s.targetZeros.toNat := by
    rw [taskQualifies, ← hz]
    rfl
  refine ⟨?_, hk, hx, hl, hd2, hz, hq⟩
  rintro e h rfl
  exact issueAll_private h

end Sys2Proof.Machine
end

section
/-! `LZN` and `QUAL` (R113 to R115): a count reaches a threshold iff that many leading digits of the digest are zero, which
determines the count. -/

namespace Sys2Proof.Machine

/-- A row begins with `n` elements that satisfy `p` iff it is that long and all of its first `n` elements do. -/
theorem le_length_takeWhile_iff {α : Type} {p : α → Bool} {l : List α} {n : Nat} :
    n ≤ (l.takeWhile p).length ↔ n ≤ l.length ∧ ∀ x ∈ l.take n, p x = true := by
  induction l generalizing n with
  | nil => simp
  | cons x l ih =>
    cases n with
    | zero => simp
    | succ n =>
      rw [List.takeWhile_cons]
      split
      · next hp => simp [hp, ih]
      · next hp => simp [hp]

/-- The count reaches `n` iff the digest has `n` leading zero digits (R113, R115). -/
theorem le_digestZeros_iff {d : Digest} {n : Nat} :
    n ≤ (digestZeros d).val ↔ n ≤ 64 ∧ ∀ i, i < n → hexDigit (Digest.value d) i = 0 := by
  rw [digestZeros_eq_taskZeros, taskZeros, le_length_takeWhile_iff, List.length_range]
  refine and_congr_right fun hn => ?_
  simp [List.take_range, Nat.min_eq_left hn]

/-- The count is the one number of leading zero digits that no further zero digit follows (R113). -/
theorem digestZeros_eq_iff {d : Digest} {z : Fin 65} :
    digestZeros d = z ↔ (∀ i, i < z.val → hexDigit (Digest.value d) i = 0) ∧
      (z.val < 64 → hexDigit (Digest.value d) z.val ≠ 0) := by
  have hz : z.val ≤ 64 := Nat.le_of_lt_succ z.isLt
  calc digestZeros d = z
    _ ↔ z.val ≤ (digestZeros d).val ∧ ¬ z.val + 1 ≤ (digestZeros d).val := by rw [Fin.ext_iff]; omega
    _ ↔ _ := by
      rw [le_digestZeros_iff, le_digestZeros_iff, Nat.forall_lt_succ_right]
      tauto

/-- The verdict is the comparison of natural numbers (R114). -/
@[simp] theorem qualifies_iff {z : Fin 65} {targetZeros : Word} :
    qualifies z targetZeros = true ↔ targetZeros.toNat ≤ z.val := decide_eq_true_iff

/-- Settles O27, by the rule of `QUAL` and the range of `Z`. -/
theorem qualComparesWithTheThreshold : Obligations.QualComparesWithTheThreshold := by
  refine ⟨decode_encode .qual, fun s e z h hz => ⟨_, exec_qual h hz, qualifies_iff, fun hzero => ?_, fun habove => ?_⟩⟩
  · simp [hzero]
  · rw [← Bool.not_eq_true, qualifies_iff]
    omega

/-- Settles O25, by the rule of `LZN`. -/
theorem lznCountsLeadingZeroDigits : Obligations.LznCountsLeadingZeroDigits :=
  ⟨decode_encode .lzn, fun _ _ _ h hd => ⟨_, exec_lzn h hd, digestZeros_eq_iff.mp rfl⟩⟩

/-- Settles O26: the digits up to the count determine it, and a threshold is reached iff that many are zero. -/
theorem countIsAPrefixProperty : Obligations.CountIsAPrefixProperty := by
  refine ⟨fun d d' hagree => ?_, fun d targetZeros => qualifies_iff.trans le_digestZeros_iff⟩
  obtain ⟨hzeros, hnext⟩ := digestZeros_eq_iff.mp (rfl : digestZeros d = _)
  refine digestZeros_eq_iff.mpr ⟨fun i hi => ?_, fun hlt => ?_⟩
  · rw [hagree i hi.le (by omega)]
    exact hzeros i hi
  · rw [hagree _ le_rfl hlt]
    exact hnext hlt

end Sys2Proof.Machine
end

section
/-! The slot indices and the populated slots of a complete batch (R122, R126). -/

namespace Sys2Proof.Machine

variable {s : State}

/-- Settles O52: the slot indices taken are those below the number of claims, and a complete batch has made one claim for each
hit. -/
theorem slotIndicesAreContiguous : Obligations.SlotIndicesAreContiguous := by
  intro s h hcomplete
  rw [← complete_claimCount h hcomplete]
  exact h.slotsTaken_perm

/-- The verdict the operations leave in `Q` is the task's (R114, R134). -/
theorem State.results_q {index : Word} (h : s.startK.toNat + index.toNat < 2 ^ 64) :
    (s.results index).q = taskQualifies (s.startK.toNat + index.toNat) s.diff.toNat s.targetZeros.toNat := by
  obtain ⟨-, -, -, -, -, -, hq⟩ := operationsRefineTheTask s index h
  exact hq

/-- The hits of a batch are the evaluators whose candidate qualifies at the task level (R134, R139). -/
theorem State.BatchInv.mem_hits_iff (h : s.BatchInv) {e : Nat} :
    e ∈ s.hits s.evaluators.length ↔ e < s.evaluators.length ∧
      taskQualifies (s.startK.toNat + e) s.diff.toNat s.targetZeros.toNat = true := by
  rw [State.hits, List.mem_filter, List.mem_range]
  refine and_congr_right fun he => ?_
  obtain ⟨hnat, hk⟩ := h.candidate_lt he
  rw [State.results_q (by rwa [hnat]), hnat]

/-- A complete batch has as many populated slots as hits, but at most ten (R121). -/
theorem complete_populated (h : s.BatchInv) (hcomplete : s.complete = true) (hne : s.evaluators ≠ []) :
    s.populated = min (s.hits s.evaluators.length).length 10 := by
  obtain ⟨hcount, -⟩ := complete_finalBuffer h hcomplete hne
  rw [State.populated, hcount, capacity_eq]

/-- Settles O53: a populated slot holds a hit with its digest, and a hit is an evaluator that qualifies. -/
theorem populatedSlotsHoldRecomputedDigests : Obligations.PopulatedSlotsHoldRecomputedDigests := by
  intro s slot h hcomplete hne hslot
  rw [complete_populated h hcomplete hne] at hslot
  obtain ⟨e, hmem, hindex, hrecovered, hdigest⟩ := complete_read_populated h hcomplete hne hslot
  obtain ⟨he, hqualifies⟩ := h.mem_hits_iff.mp hmem
  exact ⟨e, he, hindex, hrecovered, hqualifies, hdigest⟩

end Sys2Proof.Machine
end

section
/-! `CLAIM` and `RECORD` (R118 to R120): the counter, the words of a slot, and no word above 90. -/

namespace Sys2Proof.Machine

variable {s : State} {e : Evaluator}

/-! ### `CLAIM` -/

/-- Below 2^32 - 1 `CLAIM` gives `S` the counter, adds one to the counter and leaves every other word as it was (R118). -/
theorem exec_claim_counts (h : s.current = some e) (hcounter : (s.rb.read 0).toNat < 2 ^ 32 - 1) :
    ∃ t : State, exec .claim s = .next t ∧ t.current = some { e with s := .holds (s.rb.read 0) } ∧
      (t.rb.read 0).toNat = (s.rb.read 0).toNat + 1 ∧ ∀ a, a ≠ 0 → t.rb.read a = s.rb.read a := by
  refine ⟨_, exec_claim h, State.current_putCurrent (e := e) h _, ?_, fun a ha => Memory.read_write_ne _ _ ha⟩
  rw [State.putCurrent_rb, Memory.read_write_same, counterNext_toNat hcounter]

/-- An evaluator that follows the sequence comes to `CLAIM` with `Q = 1` (R132). -/
theorem Evaluator.Follows.q_at_claim (h : e.Follows s) (hu : e.upc.val = 11) : e.q = .holds true := by
  rw [h.q, h.qualified (.inl hu), regFrom, if_pos (by omega)]

/-- Settles O28, by the rule of `CLAIM` and what an evaluator of a batch holds at its place. -/
theorem claimTakesTheOldCount : Obligations.ClaimTakesTheOldCount := by
  refine ⟨decode_encode .claim, fun _ _ => exec_claim_counts, fun s e h he hu => ?_⟩
  have hfollows := h.follows e he
  exact ⟨hfollows.q_at_claim hu, hfollows.unclaimed (by omega)⟩

/-! ### `RECORD` -/

/-- Writing the words of a slot leaves the index and the eight words of the digest there (R119). -/
theorem Memory.read_writeMany_slotWrites (m : Memory) (slot : Nat) (index : Word) (d : Digest) :
    (m.writeMany (slotWrites slot index d)).read (1 + 9 * slot) = index ∧
    ∀ j : Fin 8, (m.writeMany (slotWrites slot index d)).read (2 + 9 * slot + j.val) = d[j] := by
  have hread : ∀ c ∈ slotWrites slot index d, (m.writeMany (slotWrites slot index d)).read c.1 = c.2 := fun c hc =>
    Memory.read_of_lookup (Memory.lookup_writeMany_mem m (slotWrites_nodup slot index d) hc)
  have hdigest (j : Fin 8) : (2 + 9 * slot + j.val, d[j]) ∈ slotWrites slot index d := by
    refine List.mem_cons_of_mem _ (List.mem_mapIdx.mpr ⟨j.val, by simp, Prod.ext ?_ ?_⟩)
    · simp only [slotBase_eq]; omega
    · exact Vector.getElem_toList _
  exact ⟨hread _ List.mem_cons_self, fun j => hread _ (hdigest j)⟩

/-- Settles O30: with a slot, by what its nine writes leave; without one, `RECORD` answers the same state. -/
theorem recordFillsTheSlot : Obligations.RecordFillsTheSlot := by
  refine ⟨decode_encode .record, fun s e slot h hs => ?_⟩
  split
  · next hlt =>
    intro d hd
    obtain ⟨hindex, hdigest⟩ := s.rb.read_writeMany_slotWrites slot.toNat e.index d
    exact ⟨_, exec_record_slot h hs hlt hd, rfl, hindex, hdigest,
      fun a ha => Memory.read_writeMany_slotWrites_ne _ _ _ (by omega)⟩
  · next hge => exact exec_record_full h hs hge

/-! ### No operation overruns ResultBuffer -/

/-- An operation addresses a word that does not exist only if it does so on the evaluator whose turn it is. -/
theorem onEvaluator_ne_noSuchWord {a : Nat} {f : Evaluator → Host.Outcome State Fault Refusal}
    (h : ∀ e, f e ≠ .fault (.noSuchWord a)) : onEvaluator s f ≠ .fault (.noSuchWord a) := by
  unfold onEvaluator
  split
  · exact h _
  · nofun

/-- A read of a register addresses no word: only what goes on with its value may. -/
theorem readReg_ne_noSuchWord {α : Type} {r : Reg α} {name : PrivateReg} {a : Nat}
    {f : α → Host.Outcome State Fault Refusal} (h : ∀ v, f v ≠ .fault (.noSuchWord a)) :
    readReg r name f ≠ .fault (.noSuchWord a) := by
  cases r with
  | noval => nofun
  | holds v => exact h v

/-- No operation, in any state, addresses a word that does not exist: the check of `S` is part of `RECORD` (R120). -/
theorem exec_ne_noSuchWord (i : Instr) (s : State) (a : Nat) : exec i s ≠ .fault (.noSuchWord a) := by
  cases i with
  | kgen | shaiv | claim | done => exact onEvaluator_ne_noSuchWord fun _ => nofun
  | cube | siglen | pack2 | lzn | qual =>
    exact onEvaluator_ne_noSuchWord fun _ => readReg_ne_noSuchWord fun _ => nofun
  | pack1 | shacmp =>
    exact onEvaluator_ne_noSuchWord fun _ => readReg_ne_noSuchWord fun _ => readReg_ne_noSuchWord fun _ => nofun
  | record =>
    refine onEvaluator_ne_noSuchWord fun e => readReg_ne_noSuchWord fun slot => ?_
    split
    · next hlt =>
      refine readReg_ne_noSuchWord fun d => ?_
      rw [writeWords_next fun c hc => (slotWrites_range hlt e.index d hc).2.2]
      nofun
    · nofun

/-- Settles O31: no operation faults for a word, each keeps the canonical form, and an excess hit only counts. -/
theorem noOperationOverrunsTheBuffer : Obligations.NoOperationOverrunsTheBuffer := by
  refine ⟨exec_ne_noSuchWord, fun i s t hs h => (exec_bufferEffect h).wf hs, fun s e h => ⟨fun _ hcounter => ?_, ?_⟩⟩
  · obtain ⟨t, hexec, hcurrent, hcount, -⟩ := exec_claim_counts h hcounter
    exact ⟨t, hexec, hcount, hcurrent⟩
  · exact fun slot hs hge => exec_record_full h hs (by omega)

end Sys2Proof.Machine
end

section
/-! Two word writes at different places commute (R125). -/

namespace Sys2Proof.Machine

/-! ### A write, by where the first listed word stands -/

theorem Memory.write_cons_of_lt (m : Memory) {a b : Nat} (h : a < b) (v x : Word) :
    Memory.write ((b, x) :: m) a v = (a, v) :: (b, x) :: m := if_pos h

theorem Memory.write_cons_same (m : Memory) (a : Nat) (v x : Word) :
    Memory.write ((a, x) :: m) a v = (a, v) :: m := by
  simp [Memory.write]

theorem Memory.write_cons_of_gt (m : Memory) {a b : Nat} (h : b < a) (v x : Word) :
    Memory.write ((b, x) :: m) a v = (b, x) :: m.write a v := by
  simp [Memory.write, h.not_gt, h.ne']

/-! ### Two writes -/

/-- A write at a lower word and one at a higher word may be made in either order. The induction follows `Memory.write`: below
both words it passes the first word listed, `c`; elsewhere both orders put the lower word first. -/
theorem Memory.write_comm_of_lt (m : Memory) {a b : Nat} (h : a < b) (v w : Word) :
    (m.write a v).write b w = (m.write b w).write a v := by
  induction m with
  | nil => exact (Memory.write_cons_of_gt [] h w v).trans (Memory.write_cons_of_lt [] h v w).symm
  | cons c m ih =>
    obtain ⟨c, x⟩ := c
    rcases Nat.lt_trichotomy c a with hc | rfl | hc
    · simp only [Memory.write_cons_of_gt _ hc, Memory.write_cons_of_gt _ (hc.trans h), ih]
    · simp only [Memory.write_cons_same, Memory.write_cons_of_gt _ h]
    · rw [Memory.write_cons_of_lt _ hc, Memory.write_cons_of_gt _ h]
      rcases Nat.lt_trichotomy b c with hb | rfl | hb
      · simp only [Memory.write_cons_of_lt _ hb, Memory.write_cons_of_lt _ h]
      · simp only [Memory.write_cons_same, Memory.write_cons_of_lt _ h]
      · simp only [Memory.write_cons_of_gt _ hb, Memory.write_cons_of_lt _ hc]

/-- Settles O38, by which of the two words is the lower; the canonical form is not needed. -/
theorem writesCommute : Obligations.WritesCommute := by
  intro m a b v w _ hne
  rcases Nat.lt_or_gt_of_ne hne with h | h
  · exact m.write_comm_of_lt h v w
  · exact (m.write_comm_of_lt h w v).symm

end Sys2Proof.Machine
end

section
/-! A batch runs to its end, and leaves the buffer of R139 (R131, R138, R139). -/

namespace Sys2Proof.Machine

/-- Settles O50, by the step of the evaluator chosen and by what it is to have no step left. -/
theorem everyStepOfABatchSucceeds : Obligations.EveryStepOfABatchSucceeds := by
  refine ⟨fun s e h hchosen => ?_, fun s _ => State.stepsLeft_eq_zero_iff⟩
  obtain ⟨t, hstep, -, -, hleft⟩ := step_of_chosen h hchosen
  exact ⟨t, hstep, hleft⟩

/-- Settles O51: the winners are the holders of the slot indices below ten. -/
theorem completeBatchLeavesFinalBuffer : Obligations.CompleteBatchLeavesFinalBuffer :=
  fun _ h hcomplete hne => complete_finalBuffer h hcomplete hne

/-- Settles O55, by the run of a launched batch. -/
theorem batchRunsToItsFinalBuffer : Obligations.BatchRunsToItsFinalBuffer := by
  intro n s0 s hwf h
  obtain ⟨t, hrun, -, hcomplete, hsame, -, hfinal⟩ := launched_batch_runs hwf h
  exact ⟨t, hrun, hcomplete, hfinal, hsame.diff, hsame.targetZeros, hsame.startK⟩

end Sys2Proof.Machine
end

section
/-! What an operation and a turn leave of the evaluator whose turn it is (R130, R132): every register but the one the
operation writes, and the `upc` the step sets. -/

namespace Sys2Proof.Machine

variable {s t : State}

/-! ### An operation -/

/-- Operation `i` takes evaluator `e` to `e'`: the index and `upc` stay, and so does every register but the one of the
operation's row (R130, Writes). -/
structure Evaluator.WritesOnly (i : Instr) (e e' : Evaluator) : Prop where
  index : e'.index = e.index
  upc : e'.upc = e.upc
  k : i ≠ .kgen → e'.k = e.k
  x : i ≠ .cube → e'.x = e.x
  l : i ≠ .siglen → e'.l = e.l
  b1 : i ≠ .pack1 → e'.b1 = e.b1
  b2 : i ≠ .pack2 → e'.b2 = e.b2
  d1 : i ≠ .shaiv .first → i ≠ .shacmp .first → e'.d1 = e.d1
  d2 : i ≠ .shaiv .second → i ≠ .shacmp .second → e'.d2 = e.d2
  z : i ≠ .lzn → e'.z = e.z
  q : i ≠ .qual → e'.q = e.q
  s : i ≠ .claim → e'.s = e.s
  fin : i ≠ .done → e'.fin = e.fin

/-- The frame of every operation on the evaluator whose turn it is: `RECORD` leaves it as it was, `SHAIV` and `SHACMP`
write the digest of their pass, and every other one puts it back with one register set. -/
theorem exec_writesOnly {i : Instr} (h : exec i s = .next t) :
    ∃ e e', s.current = some e ∧ t.current = some e' ∧ e.WritesOnly i e' := by
  obtain ⟨e, hc, heffect⟩ := exec_effect h
  cases heffect with
  | recordSlot | recordFull => exact ⟨e, e, hc, hc, by constructor <;> simp⟩
  | shaiv p | @shacmp p => exact ⟨e, _, hc, State.current_putCurrent hc _, by cases p <;> constructor <;> simp⟩
  | _ => exact ⟨e, _, hc, State.current_putCurrent hc _, by constructor <;> simp⟩

/-- Settles O34, by the frame of an operation on the state and that on the evaluator whose turn it is. -/
theorem operationsWriteOneRegister : Obligations.OperationsWriteOneRegister := by
  intro i s t h
  obtain ⟨e, e', hc, hc', hw⟩ := exec_writesOnly h
  obtain ⟨-, w, m, -, rfl⟩ := exec_next h
  exact ⟨rfl, rfl, rfl, rfl, rfl, rfl, rfl, List.length_set, fun j hj => State.getElem?_putCurrent_ne hj w,
    e, e', hc, hc', hw.index, hw.upc, hw.k, hw.x, hw.l, hw.b1, hw.b2, hw.d1, hw.d2, hw.z, hw.q, hw.s, hw.fin⟩

/-- Settles O32, by the rule of `DONE`. -/
theorem doneFinishesTheTask : Obligations.DoneFinishesTheTask :=
  ⟨decode_encode .done, fun _ _ h => exec_done h⟩

/-! ### A turn -/

/-- An operation does not give the turn away. -/
theorem exec_turn {i : Instr} (h : exec i s = .next t) : t.turn = s.turn := by
  obtain ⟨-, w, m, -, rfl⟩ := exec_next h
  rfl

/-- `State.advance` sets the `upc` of the evaluator whose turn it is (R131). -/
theorem State.current_advance {e : Evaluator} (h : s.current = some e) :
    s.advance.current = some { e with upc := nextUpc e.upc e.q } := by
  rw [State.advance_eq h, State.current_putCurrent h]

/-- A turn leaves its evaluator at the next `upc` of the place it was at, by the `Q` the operation left (R131, R132). -/
theorem takeTurn_upc {e : Nat} {v : Evaluator} (hv : s.evaluators[e]? = some v) (h : takeTurn e s = .next t) :
    ∃ v', t.evaluators[e]? = some v' ∧ v'.upc = nextUpc v.upc v'.q := by
  obtain ⟨-, i, t', -, -, hexec, rfl⟩ := takeTurn_next h
  obtain ⟨v₀, w, hc, hc', hw⟩ := exec_writesOnly hexec
  obtain rfl : v = v₀ := Option.some.inj (hv.symm.trans hc)
  have hget := State.current_advance hc'
  rw [State.current, State.advance_turn, exec_turn hexec] at hget
  exact ⟨_, hget, by rw [hw.upc]⟩

/-- Settles O7: the step that answers is a turn, and the cases are those of the next `upc`. -/
theorem stepSetsNextUpc : Obligations.StepSetsNextUpc := by
  intro s t e v hchosen hv h
  rw [step, hchosen] at h
  obtain ⟨v', hv', hupc⟩ := takeTurn_upc hv h
  exact ⟨v', hv', by rw [hupc, nextUpc_val]⟩

end Sys2Proof.Machine
end

section
/-! Which evaluator takes the next step, and what that step is (R131, R153). -/

namespace Sys2Proof.Machine

variable {s : State}

/-! ### The evaluator chosen -/

/-- None is chosen iff the batch is complete (R131, R136). -/
theorem State.chosen_eq_none_iff : s.chosen = none ↔ ∀ v ∈ s.evaluators, v.fin = true := by
  refine ⟨fun h => List.all_eq_true.mp (State.complete_of_chosen_none h), fun h => ?_⟩
  by_contra hsome
  obtain ⟨e, hchosen⟩ := Option.ne_none_iff_exists'.mp hsome
  obtain ⟨v, hv, hfin⟩ := State.live_iff.mp (State.chosen_live hchosen)
  simp [h v (List.mem_of_getElem? hv)] at hfin

/-- The first of the schedule is chosen, if it has a step. -/
theorem State.chosen_of_schedule {e : Nat} {rest : List Nat} (hschedule : s.schedule = e :: rest)
    (hlive : s.live e = true) : s.chosen = some e := by
  simp [State.chosen, hschedule, hlive]

/-- Settles O8: what is chosen has a step, and the schedule is followed where it names one that has. -/
theorem anyUnfinishedEvaluatorMayMove : Obligations.AnyUnfinishedEvaluatorMayMove :=
  ⟨fun _ _ h => State.live_iff.mp (State.chosen_live h), fun _ => State.chosen_eq_none_iff,
    fun _ _ v _ hv hfin => State.chosen_of_schedule rfl (State.live_iff.mpr ⟨v, hv, hfin⟩)⟩

/-- Replacing an evaluator by one with the same `fin` leaves the same ones with a step. -/
theorem State.live_set {e : Nat} {v w : Evaluator} (hv : s.evaluators[e]? = some v) (hfin : w.fin = v.fin) :
    State.live { s with evaluators := s.evaluators.set e w } = s.live := by
  funext j
  by_cases hj : j = e
  · subst hj
    have hlt := (List.getElem?_eq_some_iff.mp hv).1
    simp only [State.live, List.getElem?_set_self hlt, hv, hfin]
  · simp only [State.live, List.getElem?_set_ne (Ne.symm hj)]

/-- Replacing an evaluator by one with the same `fin` leaves the same one chosen. -/
theorem State.chosen_set {e : Nat} {v w : Evaluator} (hv : s.evaluators[e]? = some v) (hfin : w.fin = v.fin) :
    State.chosen { s with evaluators := s.evaluators.set e w } = s.chosen := by
  simp only [State.chosen, State.liveList, State.live_set hv hfin, List.length_set]

/-! ### The step of the evaluator chosen -/

/-- Settles O6: a step of the evaluator chosen is its turn, which issues the byte. -/
theorem stepRunsTheDecodedOperation : Obligations.StepRunsTheDecodedOperation := by
  intro s e v i hchosen hv hd _
  have hc : (s.select e).current = some v := hv
  cases hexec : exec i (s.select e) <;>
    simp only [step, hchosen, takeTurn, onEvaluator_some hc, issue_ok hd, hexec]

/-- Placing a command word of the encoder places its operation (R66). -/
theorem State.withFetchWord_encode (s : State) (i : Instr) : s.withFetchWord 8 (encode i).toNat = s.placeAt i := by
  have hrow : decodeTableWord 8 (encode i).toNat = some i := by
    simp [decodeTableWord, (encode i).isLt]
  simp only [State.withFetchWord, hrow]

/-- Where an evaluator is chosen, placing an operation sets its `upc` alone. -/
theorem State.placeAt_of_chosen {e : Nat} {v : Evaluator} (hchosen : s.chosen = some e)
    (hv : s.evaluators[e]? = some v) (i : Instr) :
    s.placeAt i = { s with evaluators := s.evaluators.set e { v with upc := positionOf i } } := by
  simp [State.placeAt, hchosen, List.modify_eq_set_getElem?, hv]

/-- Settles O10: the evaluator placed is still the one chosen, and the byte at its `upc` decodes to the operation. -/
theorem placedCommandIsTheNextStep : Obligations.PlacedCommandIsTheNextStep := by
  intro s e i hchosen p
  obtain ⟨v, hv, -⟩ := State.live_iff.mp (State.chosen_live hchosen)
  obtain ⟨hwf, -, -⟩ := encodingStatement i
  have hp : p = { s with evaluators := s.evaluators.set e { v with upc := positionOf i } } :=
    (s.withFetchWord_encode i).trans (State.placeAt_of_chosen hchosen hv i)
  refine ⟨⟨v, hv, hp⟩, stepRunsTheDecodedOperation p e { v with upc := positionOf i } i ?_ ?_
    (decode_commandAt i) hwf⟩
  · rw [hp, State.chosen_set (w := { v with upc := positionOf i }) hv rfl, hchosen]
  · rw [hp, List.getElem?_set_self (List.getElem?_eq_some_iff.mp hv).1]

end Sys2Proof.Machine
end

section
/-! What a move of the host between batches changes (R149, R163). -/

namespace Sys2Proof.Machine

variable {s : State}

/-- Between batches a step is the next move of the host, made where the evaluators of the batch before are gone (R36). -/
theorem step_hostAct_idle {a : HostAction} {rest : List HostAction} (h : s.complete = true) :
    step { s with host := a :: rest } = hostAct a { s with host := rest, evaluators := [], turn := 0 } := by
  have hrest : State.complete { s with host := rest } = true := h
  exact (step_of_complete h).trans (hostAct_of_complete hrest a)

/-- Between batches the host may write any word that exists (R40, R163). -/
theorem hostAct_writeWord (h : s.complete = true) {w : Nat} (hw : w < 91) (v : Word) :
    hostAct (.writeWord w v) s = .next { s with evaluators := [], turn := 0, rb := s.rb.write w v } := by
  have hrange : ∀ c ∈ [(w, v)], c.1 < rbWords := by simpa [rbWords_eq] using hw
  simp [hostAct, h, writeWords_next hrange]

/-- Between batches the host's write of a word that does not exist stops there (R40). -/
theorem hostAct_writeWord_noSuchWord (h : s.complete = true) {w : Nat} (hw : 91 ≤ w) (v : Word) :
    hostAct (.writeWord w v) s = .fault (.noSuchWord w) := by
  simp [hostAct, h, writeWords, rbWords_eq, hw]

/-- Settles O58, move by move: what the host's move leaves where no evaluator exists. -/
theorem hostMovesChangeWhatTheyName : Obligations.HostMovesChangeWhatTheyName := by
  intro s rest hs after idle
  have hafter (a : HostAction) : after a = hostAct a idle := step_hostAct_idle hs
  have hidle : idle.complete = true := rfl
  refine ⟨fun w v hw => ⟨s.rb.write w v, ?_, s.rb.read_write_same w v, fun _ => s.rb.read_write_ne v⟩,
    fun w v hw => ?_, ⟨zeroedBuffer, hafter .zeroBuffer, fun _ => lookup_zeroedBuffer⟩,
    fun v => hafter (.writeDiff v), fun v => hafter (.writeTargetZeros v), fun v => hafter (.writeStartK v)⟩
  · exact (hafter _).trans (hostAct_writeWord hidle hw v)
  · exact (hafter _).trans (hostAct_writeWord_noSuchWord hidle hw v)

end Sys2Proof.Machine
end

section
/-! The host's moves of one `evaluate_batch`, and the host's silence during the batch (R164 to R170). -/

namespace Sys2Proof.Machine

variable {s t : State}

/-! ### The premises of a launch -/

/-- A launch of more evaluators than a batch holds is refused (R167, R170). -/
theorem launch_tooLarge {n : Nat} (hlarge : maxBatch < n) : launch n s = .refused .launchTooLarge := by
  simp [launch, hlarge]

/-- A launch on a buffer with a word not known to be zero is refused (R163, R170). -/
theorem launch_bufferNotZero {n : Nat} (hfits : n ≤ maxBatch) (hover : noKOverflow s.startK n = true)
    (hzero : s.rb.isZero = false) : launch n s = .refused .launchBufferNotZero := by
  simp [launch, hfits, hover, hzero]

/-- Settles O42, premise by premise in the order of the launch. -/
theorem launchRefusesBrokenPremises : Obligations.LaunchRefusesBrokenPremises := by
  intro n s
  split_ifs with hlarge hbroken
  · exact launch_tooLarge hlarge
  · have hover : noKOverflow s.startK n = false := by
      rw [← Bool.not_eq_true, noKOverflow_iff]
      omega
    exact launch_kOverflow (Nat.le_of_not_lt hlarge) hover
  · rintro ⟨a, ha, hne⟩
    have hzero : s.rb.isZero = false := by
      rw [← Bool.not_eq_true, Memory.isZero_iff]
      exact fun hall => hne (hall a ha)
    exact launch_bufferNotZero (Nat.le_of_not_lt hlarge) ((noKOverflow_iff _ n).mpr (by omega)) hzero

/-! ### The five moves of `evaluate_batch` -/

/-- Between batches a run starts with the next move of the host, made where the evaluators of the batch before are gone. -/
theorem run_succ_of_hostAct {a : HostAction} {rest : List HostAction} (hs : s.complete = true)
    (h : hostAct a { s with host := rest, evaluators := [], turn := 0 } = .next t) (k : Nat) :
    Sys2Proof.core.run (k + 1) { s with host := a :: rest } = Sys2Proof.core.run k t :=
  run_succ_of_step ((step_hostAct_idle hs).trans h) k

/-- A state as the host's first four moves leave it: no evaluator, a zeroed buffer and the parameters written (R169). -/
def State.prepared (s : State) (diff targetZeros : Word) (startK : Word64) : State :=
  { s with diff := diff, targetZeros := targetZeros, startK := startK, rb := zeroedBuffer, evaluators := [], turn := 0 }

/-- The first four moves of `evaluate_batch` prepare the launch (R169). -/
theorem run_evaluateBatch (hs : s.complete = true) (n : Nat) (diff targetZeros : Word) (startK : Word64) (k : Nat) :
    Sys2Proof.core.run (k + 4) { s with host := evaluateBatch n diff targetZeros startK } =
      Sys2Proof.core.run k { s.prepared diff targetZeros startK with host := [.launch n] } := calc
  _ = Sys2Proof.core.run (k + 3) { s.prepared s.diff s.targetZeros s.startK with
        host := [.writeDiff diff, .writeTargetZeros targetZeros, .writeStartK startK, .launch n] } :=
    run_succ_of_hostAct hs rfl _
  _ = Sys2Proof.core.run (k + 2) { s.prepared diff s.targetZeros s.startK with
        host := [.writeTargetZeros targetZeros, .writeStartK startK, .launch n] } :=
    run_succ_of_hostAct (s := s.prepared s.diff s.targetZeros s.startK) rfl rfl _
  _ = Sys2Proof.core.run (k + 1) { s.prepared diff targetZeros s.startK with host := [.writeStartK startK, .launch n] } :=
    run_succ_of_hostAct (s := s.prepared diff s.targetZeros s.startK) rfl rfl _
  _ = Sys2Proof.core.run k { s.prepared diff targetZeros startK with host := [.launch n] } :=
    run_succ_of_hostAct (s := s.prepared diff targetZeros s.startK) rfl rfl _

/-- Settles O43: four moves prepare the launch, which then finds its premises. -/
theorem evaluateBatchLaunches : Obligations.EvaluateBatchLaunches := by
  intro s n diff targetZeros startK hdone hfits hover
  have hprepare := run_evaluateBatch (List.all_eq_true.mpr hdone) n diff targetZeros startK 1
  have hlaunch := launch_of_premises (s := { s.prepared diff targetZeros startK with host := [] }) hfits
    ((noKOverflow_iff startK n).mpr hover) ((Memory.isZero_iff _).mpr fun _ => lookup_zeroedBuffer)
  have hmove := run_succ_of_hostAct (s := s.prepared diff targetZeros startK) (a := .launch n) (rest := []) rfl hlaunch 0
  exact ⟨_, hprepare.trans hmove, rfl, rfl, rfl, rfl, fun _ => lookup_zeroedBuffer, rfl, rfl⟩

/-! ### During a batch -/

/-- While an evaluator has a step left, one is chosen (R131, R153). -/
theorem State.exists_chosen (h : s.complete = false) : ∃ e, s.chosen = some e := by
  refine Option.ne_none_iff_exists'.mp fun hnone => ?_
  simp [State.complete_of_chosen_none hnone] at h

/-- While an evaluator has a step left, a move of the host is refused (R164, R166, R168, R170). -/
theorem hostAct_during_batch (h : s.complete = false) (a : HostAction) : hostAct a s = .refused .hostDuringBatch := by
  simp [hostAct, h]

/-- While an evaluator has a step left, no read of the host is answered (R45, R53, R164). -/
theorem hostRead_during_batch (h : s.complete = false) (a : Nat) : s.hostRead a = none := by
  simp [State.hostRead, h]

/-- Settles O44: the step is the turn of the evaluator chosen, whose frame holds the parameters and the host's moves. -/
theorem hostIsQuietDuringABatch : Obligations.HostIsQuietDuringABatch := by
  refine ⟨fun s t h hstep => ?_, fun s a h => hostAct_during_batch h a, fun s a h => hostRead_during_batch h a⟩
  obtain ⟨e, hchosen⟩ := State.exists_chosen h
  obtain ⟨-, -, hdiff, hzeros, hstartK, hhost, -⟩ := stepMovesOneEvaluator s t e hchosen hstep
  exact ⟨hdiff, hzeros, hstartK, hhost⟩

end Sys2Proof.Machine
end

section
/-! `KGEN` and `CLAIM` where the spec states no result: each completes, with a free value (log entries 5 and 6). -/

namespace Sys2Proof.Machine

/-- Where the sum reaches 2^64 the candidate is the free value of the two operands (R95, D6). -/
theorem candidate_pastTop {startK : Word64} {index : Word} (h : 2 ^ 64 ≤ startK.toNat + index.toNat) :
    candidate startK index = Config.identityPastTop startK index := if_neg (Nat.not_lt.mpr h)

/-- Settles O12, by the rule of `KGEN` and the free value. -/
theorem kgenCompletesPastTheTop : Obligations.KgenCompletesPastTheTop := by
  refine ⟨Config.identityPastTop, fun s e h hsum => ?_⟩
  rw [exec_kgen h, candidate_pastTop hsum]

/-- Settles O29, by the rule of `CLAIM`, which writes the counter alone. -/
theorem claimCompletesAtTheTop : Obligations.ClaimCompletesAtTheTop := by
  intro s e h hcounter
  have hread : s.rb.read 0 = 0xFFFFFFFF := BitVec.eq_of_toNat_eq hcounter
  refine ⟨_, exec_claim h, ?_, fun a ha => Memory.read_write_ne _ _ ha⟩
  rw [← hread]
  exact State.current_putCurrent (e := e) h _

end Sys2Proof.Machine
end
